-- ==== Sys2Proof/Word.lean ====
section
/-! DEFINITION. The word types of the CORE block (spec/00_scope.md R7, R8; spec/10_state.md R20, R24, R25).
All values are unsigned; no instruction reads a value as signed. -/

namespace Sys2Proof

/-- A memory cell, a general register or a timer: `u8` (R7 `CELL_WIDTH`, R20, R29). -/
abbrev Byte := BitVec 8

/-- An instruction word, `I`, `PC` or a return address: `u16` (R24, R25, R27, R80). -/
abbrev Word := BitVec 16

/-- The 12-bit address field `nnn` of an instruction word (R10, R83). -/
abbrev Addr12 := BitVec 12

/-- The index of a general register, `0..15`: "inherently 0–15 (4-bit nibble)" (R20, R83). -/
abbrev Reg := Fin 16

/-- The index of a key of the keypad, `0..15` (R32). -/
abbrev Key := Fin 16

end Sys2Proof
end

