-- ==== Sys2Proof/Syntax.lean ====
section
/-! DEFINITION. The instructions of the CORE block: one constructor per row of spec/opcode_table.json, in the table's
order (spec/30_encoding.md R85, R86). Operands are those of R10 and R83. -/

namespace Sys2Proof

/-- A decoded instruction (R86). `x`, `y` are register indices, `kk` an 8-bit literal, `nnn` a 12-bit address, `n` the
height of a sprite in rows (a count; `Instr.wf` bounds it by the 4-bit field that encodes it). -/
inductive Instr where
  /-- `00E0` `CLS`, clear screen (R180). -/
  | cls
  /-- `00EE` `RET`, return (R110). -/
  | ret
  /-- `1nnn` `JP nnn`, jump (R111). -/
  | jp (nnn : Addr12)
  /-- `2nnn` `CALL nnn`, call (R112). -/
  | call (nnn : Addr12)
  /-- `3xkk` `SE Vx, kk`, skip if equal to a literal (R113). -/
  | seK (x : Reg) (kk : Byte)
  /-- `4xkk` `SNE Vx, kk`, skip if not equal to a literal (R114). -/
  | sneK (x : Reg) (kk : Byte)
  /-- `5xy0` `SE Vx, Vy`, skip if registers are equal (R115). -/
  | seR (x y : Reg)
  /-- `6xkk` `LD Vx, kk`, load a literal (R130). -/
  | ldK (x : Reg) (kk : Byte)
  /-- `7xkk` `ADD Vx, kk`, add a literal, no flag (R131). -/
  | addK (x : Reg) (kk : Byte)
  /-- `8xy0` `LD Vx, Vy`, assign (R132). -/
  | ldR (x y : Reg)
  /-- `8xy1` `OR Vx, Vy` (R133). -/
  | orR (x y : Reg)
  /-- `8xy2` `AND Vx, Vy` (R134). -/
  | andR (x y : Reg)
  /-- `8xy3` `XOR Vx, Vy` (R135). -/
  | xorR (x y : Reg)
  /-- `8xy4` `ADD Vx, Vy`, add with carry (R136). -/
  | addR (x y : Reg)
  /-- `8xy5` `SUB Vx, Vy`, subtract with borrow (R137). -/
  | sub (x y : Reg)
  /-- `8xy6` `SHR Vx {, Vy}`, shift right; `y` is decoded and ignored (R138, R88). -/
  | shr (x y : Reg)
  /-- `8xy7` `SUBN Vx, Vy`, subtract reversed (R139). -/
  | subn (x y : Reg)
  /-- `8xyE` `SHL Vx {, Vy}`, shift left; `y` is decoded and ignored (R140, R88). -/
  | shl (x y : Reg)
  /-- `9xy0` `SNE Vx, Vy`, skip if registers are not equal (R116). -/
  | sneR (x y : Reg)
  /-- `Annn` `LD I, nnn`, load the address register (R160). -/
  | ldI (nnn : Addr12)
  /-- `Bnnn` `JP V0, nnn`, jump plus `V0` (R117). -/
  | jpV0 (nnn : Addr12)
  /-- `Cxkk` `RND Vx, kk`, random byte and mask (R141). -/
  | rnd (x : Reg) (kk : Byte)
  /-- `Dxyn` `DRW Vx, Vy, n`, draw a sprite of `n` rows (R181). -/
  | drw (x y : Reg) (n : Nat)
  /-- `Ex9E` `SKP Vx`, skip if the key is pressed (R200). -/
  | skp (x : Reg)
  /-- `ExA1` `SKNP Vx`, skip if the key is not pressed (R201). -/
  | sknp (x : Reg)
  /-- `Fx07` `LD Vx, DT`, read the delay timer (R202). -/
  | ldVDt (x : Reg)
  /-- `Fx0A` `LD Vx, K`, wait for a key (R203). -/
  | ldVK (x : Reg)
  /-- `Fx15` `LD DT, Vx`, set the delay timer (R205). -/
  | ldDtV (x : Reg)
  /-- `Fx18` `LD ST, Vx`, set the sound timer (R206). -/
  | ldStV (x : Reg)
  /-- `Fx1E` `ADD I, Vx`, add to the address register (R161). -/
  | addI (x : Reg)
  /-- `Fx29` `LD F, Vx`, glyph address (R162). -/
  | ldF (x : Reg)
  /-- `Fx33` `LD B, Vx`, store the decimal digits (R163). -/
  | ldB (x : Reg)
  /-- `Fx55` `LD [I], Vx`, register block store (R164). -/
  | stBlock (x : Reg)
  /-- `Fx65` `LD Vx, [I]`, register block load (R165). -/
  | ldBlock (x : Reg)
  deriving DecidableEq, Repr

end Sys2Proof
end

