-- ==== Sys2Proof/WellFormed.lean ====
section
/-! DEFINITION. Which instruction terms an instruction word can hold (spec/30_encoding.md R82, R83).

Register indices, literals and addresses have exactly the range of their fields by their types. The one operand whose
type is wider than its field is the sprite height, a count. -/

namespace Sys2Proof

/-- The operands fit the fields that encode them: "`n`: an unsigned 4-bit count 0..15" (R83). -/
def Instr.wf : Instr → Bool
  | .drw _ _ n => n ≤ 15
  | .cls | .ret | .jp _ | .call _ | .seK _ _ | .sneK _ _ | .seR _ _ | .ldK _ _ | .addK _ _ | .ldR _ _
  | .orR _ _ | .andR _ _ | .xorR _ _ | .addR _ _ | .sub _ _ | .shr _ _ | .subn _ _ | .shl _ _ | .sneR _ _
  | .ldI _ | .jpV0 _ | .rnd _ _ | .skp _ | .sknp _ | .ldVDt _ | .ldVK _ | .ldDtV _ | .ldStV _ | .addI _
  | .ldF _ | .ldB _ | .stBlock _ | .ldBlock _ => true

end Sys2Proof
end

