-- ==== Sys2Proof/Decode.lean ====
section
/-! DEFINITION. The decoder and, after it, the encoder (spec/30_encoding.md R80 to R88, R95; spec/00_scope.md R10).

Decoding is a total function of the instruction word alone (R86, R87). The opcode values are the spec's own, from
general knowledge (R85, D1): UNVERIFIED, unsafe, log 6. -/

namespace Sys2Proof

/-- Why a byte sequence is no instruction. -/
inductive DecodeError where
  /-- The word is one of the unknown words of R95: the step that fetched it raises `UnknownInstruction`. Safe. -/
  | unknown (w : Word)
  /-- Fewer than two bytes were given (R81: every instruction is one 16-bit word). A fetch never gives this. Safe. -/
  | truncated
  deriving DecidableEq, Repr

/-- The 4-bit field of `w` whose lowest bit is `lo`, as a number: `w[lo+3:lo]` (R8, R10). -/
def nibble (w : Word) (lo : Nat) : Nat := (w.extractLsb' lo 4).toNat

theorem nibble_lt (w : Word) (lo : Nat) : nibble w lo < 16 := (w.extractLsb' lo 4).isLt

/-- The register index `x = w[11:8]` (R10). -/
def fieldX (w : Word) : Reg := ⟨nibble w 8, nibble_lt w 8⟩

/-- The register index `y = w[7:4]` (R10). -/
def fieldY (w : Word) : Reg := ⟨nibble w 4, nibble_lt w 4⟩

/-- The count `n = w[3:0]` (R10). -/
def fieldN (w : Word) : Nat := nibble w 0

/-- The literal `kk = w[7:0]` (R10). -/
def fieldKK (w : Word) : Byte := w.extractLsb' 0 8

/-- The address `nnn = w[11:0]` (R10). -/
def fieldNNN (w : Word) : Addr12 := w.extractLsb' 0 12

/-- Group 0x0: exactly two words are instructions (R86). -/
def decodeGroup0 (w : Word) : Except DecodeError Instr :=
  if w = 0x00E0#16 then .ok .cls
  else if w = 0x00EE#16 then .ok .ret
  else .error (.unknown w)

/-- Group 0x8: the function is the low nibble (R86). -/
def decodeGroup8 (w : Word) : Except DecodeError Instr :=
  match fieldN w with
  | 0x0 => .ok (.ldR (fieldX w) (fieldY w))
  | 0x1 => .ok (.orR (fieldX w) (fieldY w))
  | 0x2 => .ok (.andR (fieldX w) (fieldY w))
  | 0x3 => .ok (.xorR (fieldX w) (fieldY w))
  | 0x4 => .ok (.addR (fieldX w) (fieldY w))
  | 0x5 => .ok (.sub (fieldX w) (fieldY w))
  | 0x6 => .ok (.shr (fieldX w) (fieldY w))
  | 0x7 => .ok (.subn (fieldX w) (fieldY w))
  | 0xE => .ok (.shl (fieldX w) (fieldY w))
  | _ => .error (.unknown w)

/-- Group 0xE: the function is the low byte (R86). -/
def decodeGroupE (w : Word) : Except DecodeError Instr :=
  match (fieldKK w).toNat with
  | 0x9E => .ok (.skp (fieldX w))
  | 0xA1 => .ok (.sknp (fieldX w))
  | _ => .error (.unknown w)

/-- Group 0xF: the function is the low byte (R86). -/
def decodeGroupF (w : Word) : Except DecodeError Instr :=
  match (fieldKK w).toNat with
  | 0x07 => .ok (.ldVDt (fieldX w))
  | 0x0A => .ok (.ldVK (fieldX w))
  | 0x15 => .ok (.ldDtV (fieldX w))
  | 0x18 => .ok (.ldStV (fieldX w))
  | 0x1E => .ok (.addI (fieldX w))
  | 0x29 => .ok (.ldF (fieldX w))
  | 0x33 => .ok (.ldB (fieldX w))
  | 0x55 => .ok (.stBlock (fieldX w))
  | 0x65 => .ok (.ldBlock (fieldX w))
  | _ => .error (.unknown w)

/-- The decode function of R86. The last arm is group 0xF: a nibble has no other value. -/
def decode (w : Word) : Except DecodeError Instr :=
  match nibble w 12 with
  | 0x0 => decodeGroup0 w
  | 0x1 => .ok (.jp (fieldNNN w))
  | 0x2 => .ok (.call (fieldNNN w))
  | 0x3 => .ok (.seK (fieldX w) (fieldKK w))
  | 0x4 => .ok (.sneK (fieldX w) (fieldKK w))
  | 0x5 => if fieldN w = 0 then .ok (.seR (fieldX w) (fieldY w)) else .error (.unknown w)
  | 0x6 => .ok (.ldK (fieldX w) (fieldKK w))
  | 0x7 => .ok (.addK (fieldX w) (fieldKK w))
  | 0x8 => decodeGroup8 w
  | 0x9 => if fieldN w = 0 then .ok (.sneR (fieldX w) (fieldY w)) else .error (.unknown w)
  | 0xA => .ok (.ldI (fieldNNN w))
  | 0xB => .ok (.jpV0 (fieldNNN w))
  | 0xC => .ok (.rnd (fieldX w) (fieldKK w))
  | 0xD => .ok (.drw (fieldX w) (fieldY w) (fieldN w))
  | 0xE => decodeGroupE w
  | _ => decodeGroupF w

/-- Two bytes "concatenated big-endian into a 16-bit instruction word" (R70, R80): `hi` in bits 15..8. -/
def bigEndian (hi lo : Byte) : Word := hi ++ lo

/-- Decoding of a byte sequence: the first two bytes are one word, the rest is left over (R80, R81). -/
def decodeBytes : List Byte → Except DecodeError (Instr × List Byte)
  | hi :: lo :: rest =>
    match decode (bigEndian hi lo) with
    | .ok i => .ok (i, rest)
    | .error e => .error e
  | [_] => .error .truncated
  | [] => .error .truncated

/-- The bytes of a word as memory holds them, the first at the lowest address (R70). -/
def wordBytes (w : Word) : List Byte := [w.extractLsb' 8 8, w.extractLsb' 0 8]

/-! ### The encoder, from the same tables (R82, R85) -/

/-- Format `NNN`: group and a 12-bit address (R82). -/
def wordNNN (group : BitVec 4) (nnn : Addr12) : Word := group ++ nnn

/-- Formats `XKK` and `XF`: group, register and a byte, literal or function (R82). -/
def wordXKK (group : BitVec 4) (x : Reg) (kk : Byte) : Word := (group ++ BitVec.ofNat 4 x.val) ++ kk

/-- Formats `XYF` and `XYN`: group, two registers and a nibble, function or count (R82). -/
def wordXYN (group : BitVec 4) (x y : Reg) (n : Nat) : Word :=
  ((group ++ BitVec.ofNat 4 x.val) ++ BitVec.ofNat 4 y.val) ++ BitVec.ofNat 4 n

/-- The instruction word of a well-formed instruction (R82, R85). -/
def encode : Instr → Word
  | .cls => 0x00E0#16
  | .ret => 0x00EE#16
  | .jp nnn => wordNNN 0x1 nnn
  | .call nnn => wordNNN 0x2 nnn
  | .seK x kk => wordXKK 0x3 x kk
  | .sneK x kk => wordXKK 0x4 x kk
  | .seR x y => wordXYN 0x5 x y 0x0
  | .ldK x kk => wordXKK 0x6 x kk
  | .addK x kk => wordXKK 0x7 x kk
  | .ldR x y => wordXYN 0x8 x y 0x0
  | .orR x y => wordXYN 0x8 x y 0x1
  | .andR x y => wordXYN 0x8 x y 0x2
  | .xorR x y => wordXYN 0x8 x y 0x3
  | .addR x y => wordXYN 0x8 x y 0x4
  | .sub x y => wordXYN 0x8 x y 0x5
  | .shr x y => wordXYN 0x8 x y 0x6
  | .subn x y => wordXYN 0x8 x y 0x7
  | .shl x y => wordXYN 0x8 x y 0xE
  | .sneR x y => wordXYN 0x9 x y 0x0
  | .ldI nnn => wordNNN 0xA nnn
  | .jpV0 nnn => wordNNN 0xB nnn
  | .rnd x kk => wordXKK 0xC x kk
  | .drw x y n => wordXYN 0xD x y n
  | .skp x => wordXKK 0xE x 0x9E
  | .sknp x => wordXKK 0xE x 0xA1
  | .ldVDt x => wordXKK 0xF x 0x07
  | .ldVK x => wordXKK 0xF x 0x0A
  | .ldDtV x => wordXKK 0xF x 0x15
  | .ldStV x => wordXKK 0xF x 0x18
  | .addI x => wordXKK 0xF x 0x1E
  | .ldF x => wordXKK 0xF x 0x29
  | .ldB x => wordXKK 0xF x 0x33
  | .stBlock x => wordXKK 0xF x 0x55
  | .ldBlock x => wordXKK 0xF x 0x65

/-- The bytes of a well-formed instruction, in memory order (R70). -/
def encodeBytes (i : Instr) : List Byte := wordBytes (encode i)

/-- The instruction word whose bits are `w` when only the low `nbits` bits of `w` are given (numbered as
spec/opcode_table.json numbers them; every instruction is one 16-bit word, so bit 0 is bit 0 of that word). -/
def tableWord (nbits w : Nat) : Word := BitVec.ofNat 16 (w % 2 ^ nbits)

/-- What the decoder reads from the bytes of that word, laid out as the hardware stores them. -/
def decodeTableWord (nbits w : Nat) : Option Instr :=
  match decodeBytes (wordBytes (tableWord nbits w)) with
  | .ok (i, _) => some i
  | .error _ => none

end Sys2Proof
end

