-- ==== Sys2Proof/Config.lean ====
section
/-! DEFINITION. What the spec leaves to the implementation (spec/00_scope.md R7).

The sizes of R7 (4096 bytes, 16 registers, 16 stack slots, 64 x 32 pixels, 16 keys, 0x200, 0xE00) are fixed by the
spec and stand as numerals where they are used. `FONT` is an argument of the host operation `init`
(Sys2Proof/Machine/HostOps.lean); its default bytes are in Sys2Proof/Machine/Glyphs.lean. `TICK_HZ` is used by no
rule (R7, R271), so it has no counterpart: the host operation `timer tick` may come any number of times between two
steps. -/

namespace Sys2Proof

/-- `RAND` (R7, R89, R141; D18): the byte `r` that the `k`-th draw of `Cxkk` receives. "`r` is a draw, any value
0..255, under no law". It is a FREE VALUE: a constant with no body, so nothing can be proved of its values.
DESIGN CHOICE (log 5): the spec hands `r` to each `step` from outside; here the draw is numbered by the model's own
counter `State.draws`. -/
opaque Config.randomByte : Nat → Byte

end Sys2Proof
end

