-- ==== Sys2Proof/Machine/Glyphs.lean ====
section
/-! DEFINITION. The glyph table and the reset contents of memory (spec/20_memory.md R62 to R64;
spec/70_reset_and_hazards.md R261). -/

namespace Sys2Proof.Machine

/-- The glyph bytes of digits 0 to 7, five bytes each, top row first (R63, R64). -/
def glyphs0to7 : List Byte :=
  [0xF0, 0x90, 0x90, 0x90, 0xF0] ++
  [0x20, 0x60, 0x20, 0x20, 0x70] ++
  [0xF0, 0x10, 0xF0, 0x80, 0xF0] ++
  [0xF0, 0x10, 0xF0, 0x10, 0xF0] ++
  [0x90, 0x90, 0xF0, 0x10, 0x10] ++
  [0xF0, 0x80, 0xF0, 0x10, 0xF0] ++
  [0xF0, 0x80, 0xF0, 0x90, 0xF0] ++
  [0xF0, 0x10, 0x20, 0x40, 0x40]

/-- The glyph bytes of digits 8 to F, five bytes each, top row first (R63, R64). -/
def glyphs8toF : List Byte :=
  [0xF0, 0x90, 0xF0, 0x90, 0xF0] ++
  [0xF0, 0x90, 0xF0, 0x10, 0xF0] ++
  [0xF0, 0x90, 0xF0, 0x90, 0x90] ++
  [0xE0, 0x90, 0xE0, 0x90, 0xE0] ++
  [0xF0, 0x80, 0x80, 0x80, 0xF0] ++
  [0xE0, 0x90, 0x90, 0x90, 0xE0] ++
  [0xF0, 0x80, 0xF0, 0x80, 0xF0] ++
  [0xF0, 0x80, 0xF0, 0x80, 0x80]

/-- The default value of the parameter `FONT` (R64). The source lists no glyph bytes; these are the spec's, from
general knowledge (D3, GK3): UNVERIFIED, unsafe, log 1. -/
def defaultFont : Vector Byte 80 := ⟨(glyphs0to7 ++ glyphs8toF).toArray, rfl⟩

/-- What an address that memory does not list reads as: the contents after reset with the default `FONT`, that is the
glyph table at 0x000-0x04F and 0 above it (R261; the 0 is decision D12: UNVERIFIED, unsafe, log 2). -/
def unlistedByte (a : Nat) : Byte := (defaultFont.toList[a]?).getD 0

end Sys2Proof.Machine
end

