-- ==== Sys2Proof/Machine/State.lean ====
section
/-! DEFINITION. The machine-state aggregate (spec/10_state.md, summary R36), the step errors
(spec/60_exceptions.md R221) and the state after reset (spec/70_reset_and_hazards.md R261). -/

namespace Sys2Proof.Machine

/-- The 4096-byte memory (R35, R60): the listed bytes, addresses strictly rising, none equal to what an unlisted
address reads as (`unlistedByte`). `Memory.wf` (Machine/Ops.lean) is that form. -/
abbrev Memory := List Host.Cell

/-- The display surface, `disp[y][x]`: 32 rows of 64 pixels, `true` lit (R31). -/
abbrev Display := Vector (Vector Bool 64) 32

/-- The run status `{ Running, WaitingForKey(r) }` (R33). -/
inductive RunStatus where
  /-- `step` executes instructions. -/
  | running
  /-- `Fx0A` waits for a key; `r` is "the register index captured at the time wait-for-key was decoded". -/
  | waitingForKey (r : Reg)
  deriving DecidableEq, Repr

/-- The step errors of R221 with the information each records (R226). A step that raises one records it in
`State.fault` and answers a next state (R222, log 3); a step of a machine that has one recorded answers it as the
outcome `fault` (R223, log 4). `pc` is the address of the instruction that raised the error. -/
inductive Fault where
  /-- Code 1. Raised by a step whose fetched word is no instruction (R95). Safe: D5 decodes strictly. -/
  | unknownInstruction (word pc : Word)
  /-- Code 2. Raised by `2nnn` with 16 return addresses on the stack (R28, R112). Safe: the spec states it. -/
  | stackOverflow (pc : Word)
  /-- Code 3. Raised by `00EE` with an empty stack (R28, R110). Safe: the spec states it. -/
  | stackUnderflow (pc : Word)
  /-- Code 4. Raised by fetch, `Dxyn`, `Fx33`, `Fx55` and `Fx65` when an address exceeds 0xFFF; `addr` is the lowest
  such address of the access group (R66, R67, R226). Safe: D9 never wraps. -/
  | outOfBoundsAccess (addr : Nat) (pc : Word)
  /-- Code 5. Raised by `Fx33` and `Fx55` when a write address is at most 0x04F (R65, R67). Safe: D11. -/
  | romWrite (addr : Nat) (pc : Word)
  /-- Code 6. Raised by `Ex9E` and `ExA1` when `V[x] > 15` (R200, R201). Safe: D14. -/
  | keyIndexOutOfRange (value : Byte) (pc : Word)
  deriving DecidableEq, Repr

/-- Why a step has no meaning. -/
inductive Refusal where
  /-- Raised by an arm of `exec` for an instruction that has no meaning yet. No arm raises it: every instruction is
  modelled. Safe. -/
  | notModelled (mnemonic : String)
  deriving DecidableEq, Repr

/-- The state of the machine: every element of R36, and `draws`, the model's own. -/
structure State where
  /-- Memory, 4096 bytes (R35, R60). -/
  mem : Memory
  /-- The general registers `V[0]..V[15]` (R20); `V[15]` is also the flag `VF` (R21). -/
  v : Vector Byte 16
  /-- The address register `I`, 16 bits, never masked (R24). -/
  i : Word
  /-- The program counter (R25). -/
  pc : Word
  /-- The number of occupied stack slots, the source's stack pointer (R27). -/
  depth : Fin 17
  /-- The slots of the call stack (R27). -/
  stack : Vector Word 16
  /-- The delay timer `DT` (R29). -/
  dt : Byte
  /-- The sound timer `ST` (R30). -/
  st : Byte
  /-- The display surface (R31). -/
  disp : Display
  /-- The keypad state, `true` meaning down (R32). -/
  key : Vector Bool 16
  /-- The run status (R33). -/
  status : RunStatus
  /-- The fault record (R34). -/
  fault : Option Fault
  /-- The model's own field (log 5): how many random bytes have been drawn, so that each draw of `Cxkk` reads a fresh
  free value `Config.randomByte draws`. -/
  draws : Nat
  deriving DecidableEq, Repr

/-- The state after `init` with the default `FONT` (R261): memory lists nothing, since an unlisted address reads as
its reset contents. `draws` starts at 0 by DESIGN CHOICE (log 5). -/
def State.reset : State where
  mem := []
  v := Vector.replicate 16 0
  i := 0
  pc := 0x200
  depth := 0
  stack := Vector.replicate 16 0
  dt := 0
  st := 0
  disp := Vector.replicate 32 (Vector.replicate 64 false)
  key := Vector.replicate 16 false
  status := .running
  fault := none
  draws := 0

end Sys2Proof.Machine
end

