-- ==== Sys2Proof/Machine/Ops.lean ====
section
/-! DEFINITION. The named operations over memory, registers and the call stack, and the raising of a step error
(spec/10_state.md R28; spec/20_memory.md R60 to R70; spec/60_exceptions.md R222).

The spec has no trap entry and no return from one (R227, R228): an error discards the step and is recorded, and
nothing but initialisation clears it. `State.raise` is that one operation. -/

namespace Sys2Proof.Machine

/-! ### Memory as data -/

/-- The byte at address `a` (R60): the listed one, or the reset contents. -/
def Memory.byteAt : Memory → Nat → Byte
  | [], a => unlistedByte a
  | (k, b) :: m, a => if k = a then b else Memory.byteAt m a

/-- `(k, b)` put before `m`, unless an unlisted `k` reads as `b` anyway. -/
def Memory.list (k : Nat) (b : Byte) (m : Memory) : Memory :=
  if b = unlistedByte k then m else (k, b) :: m

/-- Memory with `b` at address `a`, in canonical form again. -/
def Memory.store : Memory → Nat → Byte → Memory
  | [], a, b => Memory.list a b []
  | (k, c) :: m, a, b =>
    if a < k then Memory.list a b ((k, c) :: m)
    else if a = k then Memory.list a b m
    else (k, c) :: Memory.store m a b

/-- Memory with the bytes `bs` at the addresses from `a` on, ascending. -/
def Memory.storeAll : Memory → Nat → List Byte → Memory
  | m, _, [] => m
  | m, a, b :: bs => Memory.storeAll (Memory.store m a b) (a + 1) bs

/-- The canonical form, for addresses from `lo` on: strictly rising, below 4096 (R60), and no entry equal to what an
unlisted address reads as. -/
def Memory.wfFrom : Nat → Memory → Bool
  | _, [] => true
  | lo, (k, b) :: m => lo ≤ k && k < 4096 && b != unlistedByte k && Memory.wfFrom (k + 1) m

/-- The canonical form of memory. -/
def Memory.wf (m : Memory) : Bool := Memory.wfFrom 0 m

/-! ### Errors -/

/-- The address of the instruction that raised the error (R221). -/
def Fault.pc : Fault → Word
  | .unknownInstruction _ pc | .stackOverflow pc | .stackUnderflow pc | .outOfBoundsAccess _ pc | .romWrite _ pc
  | .keyIndexOutOfRange _ pc => pc

/-- The error codes of R221. -/
def Fault.code : Fault → Nat
  | .unknownInstruction _ _ => 1
  | .stackOverflow _ => 2
  | .stackUnderflow _ => 3
  | .outOfBoundsAccess _ _ => 4
  | .romWrite _ _ => 5
  | .keyIndexOutOfRange _ _ => 6

/-- The effect of a step error on the state before the step (R222): every change of the step is discarded and the
error is recorded. -/
def State.recordFault (s : State) (e : Fault) : State := { s with fault := some e }

/-- The outcome of a step, begun in `s`, that raises `e` (R222). Taken as a next state: log 3. -/
def State.raise (s : State) (e : Fault) : Host.Outcome State Fault Refusal := .next (s.recordFault e)

/-- The outcome of an instruction begun in `s` whose body gave `r`: the body's state, or the error raised on `s`
itself, so that no part of the body's work remains (R222). -/
def State.complete (s : State) : Except Fault State → Host.Outcome State Fault Refusal
  | .ok t => .next t
  | .error e => s.raise e

/-! ### Memory access -/

/-- `MemRead(a, 1)` (R66). -/
def State.memRead (s : State) (a : Nat) : Except Fault Byte :=
  if 0xFFF < a then .error (.outOfBoundsAccess a s.pc) else .ok (s.mem.byteAt a)

/-- `MemWrite(a, 1, b)` (R67). -/
def State.memWrite (s : State) (a : Nat) (b : Byte) : Except Fault State :=
  if 0xFFF < a then .error (.outOfBoundsAccess a s.pc)
  else if a ≤ 0x04F then .error (.romWrite a s.pc)
  else .ok { s with mem := s.mem.store a b }

/-- `n` reads at ascending addresses from `a` on (R68). -/
def State.readBlock (s : State) : Nat → Nat → Except Fault (List Byte)
  | _, 0 => .ok []
  | a, n + 1 =>
    match s.memRead a with
    | .error e => .error e
    | .ok b =>
      match s.readBlock (a + 1) n with
      | .error e => .error e
      | .ok bs => .ok (b :: bs)

/-- The bytes written at ascending addresses from `a` on (R68). -/
def State.writeBlock : State → Nat → List Byte → Except Fault State
  | s, _, [] => .ok s
  | s, a, b :: bs =>
    match s.memWrite a b with
    | .error e => .error e
    | .ok t => t.writeBlock (a + 1) bs

/-- The fetch of R80: two bytes at `PC` and `PC + 1`, computed without wrap (R69), big-endian. -/
def State.fetch (s : State) : Except Fault Word :=
  match s.memRead s.pc.toNat with
  | .error e => .error e
  | .ok hi =>
    match s.memRead (s.pc.toNat + 1) with
    | .error e => .error e
    | .ok lo => .ok (bigEndian hi lo)

/-! ### Registers and the program counter -/

/-- The flag register `VF` (R21). -/
def VF : Reg := 15

/-- `V[r]` (R20). -/
def State.reg (s : State) (r : Reg) : Byte := s.v[r.val]

/-- `V[r] <- b` (R20): no register is hardwired. -/
def State.setReg (s : State) (r : Reg) (b : Byte) : State := { s with v := s.v.set r.val b }

/-- `V[k] <- b`, `V[k+1] <- b'`, … in order, for as many registers as there are (R165). -/
def State.loadRegs : State → Nat → List Byte → State
  | s, _, [] => s
  | s, k, b :: bs => if h : k < 16 then (s.setReg ⟨k, h⟩ b).loadRegs (k + 1) bs else s

/-- `I <- w` (R24). -/
def State.setI (s : State) (w : Word) : State := { s with i := w }

/-- `PC <- w` (R26). -/
def State.setPc (s : State) (w : Word) : State := { s with pc := w }

/-- "Advance": `PC <- PC + 2` (R11, R26). On a `PC` that no run reaches the sum wraps: log 16. -/
def State.advance (s : State) : State := s.setPc (s.pc + 2)

/-- The skip pattern: `PC + 4` if the condition holds, else `PC + 2` (R11, R26). -/
def State.skipIf (s : State) (cond : Bool) : State := if cond then s.setPc (s.pc + 4) else s.advance

/-! ### The call stack -/

/-- `Push(w)` (R28). -/
def State.push (s : State) (w : Word) : Except Fault State :=
  if h : s.depth.val < 16 then
    .ok { s with stack := s.stack.set s.depth.val w, depth := ⟨s.depth.val + 1, by omega⟩ }
  else .error (.stackOverflow s.pc)

/-- `Pop()` (R28): the popped address and the state with the depth lowered; the slot keeps its value (log 13). -/
def State.pop (s : State) : Except Fault (Word × State) :=
  if h : 0 < s.depth.val then
    .ok (s.stack[s.depth.val - 1]'(by omega), { s with depth := ⟨s.depth.val - 1, by omega⟩ })
  else .error (.stackUnderflow s.pc)

end Sys2Proof.Machine
end

