-- ==== Sys2Proof/Machine/Flags.lean ====
section
/-! DEFINITION. The flag computations: `VF` as carry, no-borrow, shifted-out bit and collision
(spec/10_state.md R21, R22; spec/41_alu.md R136 to R143; spec/43_display.md R184).

There is no status register (R22): a flag is the byte 1 or 0 written to `VF`. -/

namespace Sys2Proof.Machine

/-- `cond ? 1 : 0`. -/
def flagByte (cond : Bool) : Byte := if cond then 1 else 0

/-- Carry out of bit 7: the unbounded sum exceeds 255 (R136, R142). -/
def carryFlag (a b : Byte) : Byte := flagByte (255 < a.toNat + b.toNat)

/-- The subtraction flag: the minuend is strictly greater (R137, R139, R142). -/
def greaterFlag (minuend subtrahend : Byte) : Byte := flagByte (subtrahend.toNat < minuend.toNat)

/-- The bit a right shift shifts out, `a & 1` (R138). -/
def shiftedOutRight (a : Byte) : Byte := a &&& 1

/-- The bit a left shift shifts out, `(a >> 7) & 1` (R140). -/
def shiftedOutLeft (a : Byte) : Byte := (a >>> 7) &&& 1

/-- `V[15] <- flag` (R21). -/
def State.setFlag (s : State) (flag : Byte) : State := s.setReg VF flag

end Sys2Proof.Machine
end

