-- ==== Sys2Proof/Machine/Operands.lean ====
section
/-! DEFINITION. The operand forms: literals, addresses, digits, the register block, sprites and keys
(spec/30_encoding.md R83; spec/20_memory.md R63, R69; spec/42_index_memory.md; spec/43_display.md R182 to R184). -/

namespace Sys2Proof.Machine

/-- `zext_16(nnn)` (R83). -/
def zextAddr (nnn : Addr12) : Word := nnn.setWidth 16

/-- `zext_16(b)` (R8). -/
def zextByte (b : Byte) : Word := b.setWidth 16

/-- The effective address `I + 0` from which the accesses of `Dxyn`, `Fx33`, `Fx55` and `Fx65` ascend (R69): the value
of `I` as an unbounded integer, never masked (90_conflicts.md C1). -/
def State.base (s : State) : Nat := s.i.toNat

/-- `5 * zext_16(d)`, the glyph address of digit `d` (R63, R162); not masked for `d > 15` (D15, log 10). -/
def glyphAddress (d : Byte) : Word := 5 * zextByte d

/-- The hundreds, tens and units digits of a byte, in the order they are stored (R163). -/
def bcdDigits (b : Byte) : List Byte :=
  [BitVec.ofNat 8 (b.toNat / 100), BitVec.ofNat 8 (b.toNat / 10 % 10), BitVec.ofNat 8 (b.toNat % 10)]

/-- The values of `V[0]` to `V[x]`, in order (R164). -/
def State.regBlock (s : State) (x : Reg) : List Byte := s.v.toList.take (x.val + 1)

/-- `(I + x + 1) mod 65536`, the advance of `I` by a block transfer (R164, R165). -/
def State.advancedI (s : State) (x : Reg) : Word := s.i + BitVec.ofNat 16 (x.val + 1)

/-- The free byte that the next draw of `Cxkk` receives (R89, R141). -/
def State.randomByte (s : State) : Byte := Config.randomByte s.draws

/-- The draw is used up. -/
def State.drawn (s : State) : State := { s with draws := s.draws + 1 }

/-- `key[k]` for a register value `k`, if `k` names a key at all: `k <= 15` (R200, D14). -/
def State.keyDown? (s : State) (k : Byte) : Option Bool := s.key[k.toNat]?

/-! ### The display surface and sprites -/

/-- Column `c` of a sprite byte: bit `7 - c`, so bit 7 is the leftmost column (R182; D4, log 8). -/
def spriteBit (row : Byte) (c : Nat) : Bool := row.getLsbD (7 - c)

/-- The pixel in column `px` and row `py`; nothing outside the grid is lit. -/
def Display.pixel (d : Display) (px py : Nat) : Bool :=
  if h : px < 64 ∧ py < 32 then (d[py]'h.2)[px]'h.1 else false

/-- `disp[py][px] <- not disp[py][px]`; a pixel outside the grid is dropped (R183). -/
def Display.flip (d : Display) (px py : Nat) : Display :=
  if h : px < 64 ∧ py < 32 then
    d.set py ((d[py]'h.2).set px (!((d[py]'h.2)[px]'h.1)) h.1) h.2
  else d

/-- All pixels off (R180). -/
def Display.blank : Display := Vector.replicate 32 (Vector.replicate 64 false)

/-- A draw in progress: the display and whether a lit pixel was hit (R181). -/
structure Blit where
  disp : Display
  collided : Bool
  deriving DecidableEq, Repr

/-- One column of one sprite row: the innermost statement of R181. A set bit inside the grid turns its pixel over, and
collides if the pixel was lit (R183, R184). -/
def Blit.column (ox oy i : Nat) (row : Byte) (p : Blit) (c : Nat) : Blit :=
  if spriteBit row c = true ∧ ox + c < 64 ∧ oy + i < 32 then
    { disp := Display.flip p.disp (ox + c) (oy + i)
      collided := p.collided || Display.pixel p.disp (ox + c) (oy + i) }
  else p

/-- The eight columns of sprite row `i`, left to right (R181). -/
def Blit.row (ox oy i : Nat) (row : Byte) (p : Blit) : Blit :=
  [0, 1, 2, 3, 4, 5, 6, 7].foldl (Blit.column ox oy i row) p

/-- The sprite rows from row `i` on, top to bottom (R181). -/
def Blit.rows (ox oy : Nat) : Nat → List Byte → Blit → Blit
  | _, [], p => p
  | i, row :: more, p => Blit.rows ox oy (i + 1) more (Blit.row ox oy i row p)

end Sys2Proof.Machine
end

