-- ==== Sys2Proof/Machine/Alu.lean ====
section
/-! DEFINITION. Register loads and the ALU (spec/41_alu.md). Every instruction advances `PC` by 2 and raises nothing.

For `8xy4` to `8xy7` and `8xyE` the flag is written first and the result is computed from the registers after that
write (R143; D6: UNVERIFIED, unsafe, log 7). -/

namespace Sys2Proof.Machine

/-- `V[x] <- b`, then advance. -/
def State.putReg (s : State) (x : Reg) (b : Byte) : Host.Outcome State Fault Refusal := .next (s.setReg x b).advance

/-- The two statements of R143 in sequence: `VF` receives the flag, then `V[x]` receives the result, which is computed
in the state the first statement left; then advance. -/
def State.flagThenResult (s : State) (x : Reg) (flag : Byte) (result : State → Byte) :
    Host.Outcome State Fault Refusal :=
  (s.setFlag flag).putReg x (result (s.setFlag flag))

/-- `LD Vx, kk` (R130). -/
def execLdK (x : Reg) (kk : Byte) (s : State) : Host.Outcome State Fault Refusal := s.putReg x kk

/-- `ADD Vx, kk` (R131): modulo 256, no flag. -/
def execAddK (x : Reg) (kk : Byte) (s : State) : Host.Outcome State Fault Refusal := s.putReg x (s.reg x + kk)

/-- `LD Vx, Vy` (R132). -/
def execLdR (x y : Reg) (s : State) : Host.Outcome State Fault Refusal := s.putReg x (s.reg y)

/-- `OR Vx, Vy` (R133). -/
def execOrR (x y : Reg) (s : State) : Host.Outcome State Fault Refusal := s.putReg x (s.reg x ||| s.reg y)

/-- `AND Vx, Vy` (R134). -/
def execAndR (x y : Reg) (s : State) : Host.Outcome State Fault Refusal := s.putReg x (s.reg x &&& s.reg y)

/-- `XOR Vx, Vy` (R135). -/
def execXorR (x y : Reg) (s : State) : Host.Outcome State Fault Refusal := s.putReg x (s.reg x ^^^ s.reg y)

/-- `ADD Vx, Vy` (R136). -/
def execAddR (x y : Reg) (s : State) : Host.Outcome State Fault Refusal :=
  s.flagThenResult x (carryFlag (s.reg x) (s.reg y)) fun t => t.reg x + t.reg y

/-- `SUB Vx, Vy` (R137). -/
def execSub (x y : Reg) (s : State) : Host.Outcome State Fault Refusal :=
  s.flagThenResult x (greaterFlag (s.reg x) (s.reg y)) fun t => t.reg x - t.reg y

/-- `SHR Vx {, Vy}` (R138): `y` is not read (R88). -/
def execShr (x _y : Reg) (s : State) : Host.Outcome State Fault Refusal :=
  s.flagThenResult x (shiftedOutRight (s.reg x)) fun t => t.reg x >>> 1

/-- `SUBN Vx, Vy` (R139). -/
def execSubn (x y : Reg) (s : State) : Host.Outcome State Fault Refusal :=
  s.flagThenResult x (greaterFlag (s.reg y) (s.reg x)) fun t => t.reg y - t.reg x

/-- `SHL Vx {, Vy}` (R140): `y` is not read (R88). -/
def execShl (x _y : Reg) (s : State) : Host.Outcome State Fault Refusal :=
  s.flagThenResult x (shiftedOutLeft (s.reg x)) fun t => t.reg x <<< 1

/-- `RND Vx, kk` (R141): the free byte of this draw, masked. -/
def execRnd (x : Reg) (kk : Byte) (s : State) : Host.Outcome State Fault Refusal :=
  s.drawn.putReg x (s.randomByte &&& kk)

end Sys2Proof.Machine
end

