-- ==== Sys2Proof/Machine/ControlFlow.lean ====
section
/-! DEFINITION. Return, jumps, call and skips (spec/40_control_flow.md). -/

namespace Sys2Proof.Machine

/-- `RET` (R110): `PC <- Pop()`, nothing added. -/
def execRet (s : State) : Host.Outcome State Fault Refusal :=
  s.complete <|
    match s.pop with
    | .error e => .error e
    | .ok (target, t) => .ok (t.setPc target)

/-- `JP nnn` (R111). -/
def execJp (nnn : Addr12) (s : State) : Host.Outcome State Fault Refusal := .next (s.setPc (zextAddr nnn))

/-- `CALL nnn` (R112): pushes the post-fetch `PC + 2`. -/
def execCall (nnn : Addr12) (s : State) : Host.Outcome State Fault Refusal :=
  s.complete <|
    match s.push (s.pc + 2) with
    | .error e => .error e
    | .ok t => .ok (t.setPc (zextAddr nnn))

/-- `SE Vx, kk` (R113). -/
def execSeK (x : Reg) (kk : Byte) (s : State) : Host.Outcome State Fault Refusal := .next (s.skipIf (s.reg x == kk))

/-- `SNE Vx, kk` (R114). -/
def execSneK (x : Reg) (kk : Byte) (s : State) : Host.Outcome State Fault Refusal := .next (s.skipIf (s.reg x != kk))

/-- `SE Vx, Vy` (R115). -/
def execSeR (x y : Reg) (s : State) : Host.Outcome State Fault Refusal := .next (s.skipIf (s.reg x == s.reg y))

/-- `SNE Vx, Vy` (R116). -/
def execSneR (x y : Reg) (s : State) : Host.Outcome State Fault Refusal := .next (s.skipIf (s.reg x != s.reg y))

/-- `JP V0, nnn` (R117): the offset register is always `V0`. -/
def execJpV0 (nnn : Addr12) (s : State) : Host.Outcome State Fault Refusal :=
  .next (s.setPc (zextAddr nnn + zextByte (s.reg 0)))

end Sys2Proof.Machine
end

