-- ==== Sys2Proof/Machine/IndexMemory.lean ====
section
/-! DEFINITION. The address register and the memory transfers (spec/42_index_memory.md). A transfer is all or nothing:
`State.complete` raises an error on the state before the instruction (R68, R222). -/

namespace Sys2Proof.Machine

/-- `LD I, nnn` (R160). -/
def execLdI (nnn : Addr12) (s : State) : Host.Outcome State Fault Refusal := .next (s.setI (zextAddr nnn)).advance

/-- `ADD I, Vx` (R161): modulo 65536, no flag, no mask. -/
def execAddI (x : Reg) (s : State) : Host.Outcome State Fault Refusal :=
  .next (s.setI (s.i + zextByte (s.reg x))).advance

/-- `LD F, Vx` (R162). -/
def execLdF (x : Reg) (s : State) : Host.Outcome State Fault Refusal :=
  .next (s.setI (glyphAddress (s.reg x))).advance

/-- `LD B, Vx` (R163): three digits at `I`, `I + 1`, `I + 2`. -/
def execLdB (x : Reg) (s : State) : Host.Outcome State Fault Refusal :=
  s.complete <|
    match s.writeBlock s.base (bcdDigits (s.reg x)) with
    | .error e => .error e
    | .ok t => .ok t.advance

/-- `LD [I], Vx` (R164): `V[0]..V[x]` at `I`, `I + 1`, …; then `I` advances by `x + 1`. -/
def execStBlock (x : Reg) (s : State) : Host.Outcome State Fault Refusal :=
  s.complete <|
    match s.writeBlock s.base (s.regBlock x) with
    | .error e => .error e
    | .ok t => .ok (t.setI (s.advancedI x)).advance

/-- `LD Vx, [I]` (R165): `V[0]..V[x]` from `I`, `I + 1`, …; then `I` advances by `x + 1`. -/
def execLdBlock (x : Reg) (s : State) : Host.Outcome State Fault Refusal :=
  s.complete <|
    match s.readBlock s.base (x.val + 1) with
    | .error e => .error e
    | .ok bs => .ok ((s.loadRegs 0 bs).setI (s.advancedI x)).advance

end Sys2Proof.Machine
end

