-- ==== Sys2Proof/Machine/Screen.lean ====
section
/-! DEFINITION. Clear screen and the sprite blitter (spec/43_display.md). -/

namespace Sys2Proof.Machine

/-- `CLS` (R180). -/
def execCls (s : State) : Host.Outcome State Fault Refusal := .next { s with disp := Display.blank }.advance

/-- `DRW Vx, Vy, n` (R181): the coordinates are read and all `n` bytes are read and checked before anything changes
(D17, log 9); `VF` is written by every execution, with `n = 0` too (D16, log 10). -/
def execDrw (x y : Reg) (n : Nat) (s : State) : Host.Outcome State Fault Refusal :=
  s.complete <|
    match s.readBlock s.base n with
    | .error e => .error e
    | .ok rows =>
      let p := Blit.rows (s.reg x).toNat (s.reg y).toNat 0 rows { disp := s.disp, collided := false }
      .ok ({ s with disp := p.disp }.setFlag (flagByte p.collided)).advance

end Sys2Proof.Machine
end

