-- ==== Sys2Proof/Machine/TimersKeypad.lean ====
section
/-! DEFINITION. Key skips, timers and the wait for a key (spec/44_timers_keypad.md). -/

namespace Sys2Proof.Machine

/-- The body of `Ex9E` and `ExA1`: an index above 15 is an error, otherwise the skip pattern on `key[V[x]] = wanted`
(R200, R201; D14, log 9). -/
def State.skipOnKey (s : State) (x : Reg) (wanted : Bool) : Host.Outcome State Fault Refusal :=
  s.complete <|
    match s.keyDown? (s.reg x) with
    | none => .error (.keyIndexOutOfRange (s.reg x) s.pc)
    | some down => .ok (s.skipIf (down == wanted))

/-- `SKP Vx` (R200). -/
def execSkp (x : Reg) (s : State) : Host.Outcome State Fault Refusal := s.skipOnKey x true

/-- `SKNP Vx` (R201). -/
def execSknp (x : Reg) (s : State) : Host.Outcome State Fault Refusal := s.skipOnKey x false

/-- `LD Vx, DT` (R202). -/
def execLdVDt (x : Reg) (s : State) : Host.Outcome State Fault Refusal := .next (s.setReg x s.dt).advance

/-- `LD Vx, K` (R203): the wait begins and `PC` keeps the address of this instruction; the host operation
`deliver key press` ends it (R204, Machine/HostOps.lean). -/
def execLdVK (x : Reg) (s : State) : Host.Outcome State Fault Refusal := .next { s with status := .waitingForKey x }

/-- `LD DT, Vx` (R205). -/
def execLdDtV (x : Reg) (s : State) : Host.Outcome State Fault Refusal := .next { s with dt := s.reg x }.advance

/-- `LD ST, Vx` (R206). -/
def execLdStV (x : Reg) (s : State) : Host.Outcome State Fault Refusal := .next { s with st := s.reg x }.advance

end Sys2Proof.Machine
end

