-- ==== Sys2Proof/Machine/Step.lean ====
section
/-! DEFINITION. One step of the machine (spec/30_encoding.md R89; the order of its checks is spec/60_exceptions.md
R225), and the placing of an instruction word for the host's check. -/

namespace Sys2Proof.Machine

/-- The host operation `step` (R89). A recorded fault is answered again and nothing runs (R223, log 4); a machine that
waits for a key does nothing (R203); otherwise one instruction is fetched, decoded and executed. -/
def step (s : State) : Host.Outcome State Fault Refusal :=
  match s.fault with
  | some e => .fault e
  | none =>
    match s.status with
    | .waitingForKey _ => .next s
    | .running =>
      match s.fetch with
      | .error e => s.raise e
      | .ok w =>
        match decode w with
        | .error _ => s.raise (.unknownInstruction w s.pc)
        | .ok i => exec i s

/-- `s` with the instruction word whose bits are `w` stored where `step` fetches next, and with nothing in the way of
that fetch: no recorded fault, not waiting, and a `PC` from which a word can be fetched. It stands for the loading of a
program (log 15). -/
def State.withFetchWord (s : State) (nbits w : Nat) : State :=
  let pc : Word := if s.pc.toNat ≤ 0xFFE then s.pc else 0x200
  { s with
    pc := pc
    status := .running
    fault := none
    mem := s.mem.storeAll pc.toNat (wordBytes (tableWord nbits w)) }

end Sys2Proof.Machine
end

