-- ==== Sys2Proof/Machine/HostOps.lean ====
section
/-! DEFINITION. The block's host interface, closed by spec/60_exceptions.md R237: `init`, `load`, `step`, `timer tick`,
`set key state`, `deliver key press`, `snapshot` and `sound_active`. Each is one atomic transaction and a run is any
sequence of them (R241, log 14). -/

namespace Sys2Proof.Machine

/-! ### Initialisation and loading -/

/-- `init(FONT)` (R260, R261): the state of R261 with the given glyph table. With the default `FONT` it is
`State.reset`. -/
def State.init (font : Vector Byte 80) : State :=
  { State.reset with mem := Memory.storeAll [] 0 font.toList }

/-- The load errors of R221, which are no fault of the running machine and are not recorded (R224). -/
inductive LoadError where
  /-- Code 7. Raised by `load` when the image is longer than 0xE00 bytes (R264). Safe: the spec states it. -/
  | loadTooLarge (length : Nat)
  /-- Code 8. Raised by `load` when no bytes were supplied (R265). Safe: the spec states it. -/
  | loadUnreadable
  deriving DecidableEq, Repr

/-- The error codes of R221. -/
def LoadError.code : LoadError → Nat
  | .loadTooLarge _ => 7
  | .loadUnreadable => 8

/-- `load(image)` (R263 to R265), `none` being "no bytes": the bytes go to 0x200 on, directly and not through
`MemWrite`, and nothing else changes. -/
def State.load (s : State) : Option (List Byte) → Except LoadError State
  | none => .error .loadUnreadable
  | some image =>
    if 0xE00 < image.length then .error (.loadTooLarge image.length)
    else .ok { s with mem := s.mem.storeAll 0x200 image }

/-! ### Events between steps -/

/-- A timer one tick later: "floored at 0" (R29, R232). -/
def tickDown (t : Byte) : Byte := if t = 0 then 0 else t - 1

/-- `timer tick()` (R232), in every status and with a fault recorded too (D27, log 12). -/
def State.timerTick (s : State) : State := { s with dt := tickDown s.dt, st := tickDown s.st }

/-- `set key state(k, down)` (R235). -/
def State.setKeyState (s : State) (k : Key) (down : Bool) : State := { s with key := s.key.set k.val down }

/-- `deliver key press(k)` (R204): ends the wait of `Fx0A`; without a wait it has no effect (D20, log 12). -/
def State.deliverKeyPress (s : State) (k : Key) : State :=
  match s.status with
  | .waitingForKey r => { (s.setReg r (BitVec.ofNat 8 k.val)).advance with status := .running }
  | .running => s

/-! ### Observations -/

/-- `snapshot()` (R234): a copy of the display. -/
def State.snapshot (s : State) : Display := s.disp

/-- Pixel `index = y*64 + x` of the row-major grid (R31). -/
def Display.rowMajor (d : Display) (index : Nat) : Bool := Display.pixel d (index % 64) (index / 64)

/-- `sound_active = (ST > 0)` (R236). -/
def State.soundActive (s : State) : Bool := 0 < s.st.toNat

/-! ### The operations as data -/

/-- What the host may ask of the block (R237). -/
inductive HostOp where
  | init (font : Vector Byte 80)
  | load (image : Option (List Byte))
  | step
  | timerTick
  | setKeyState (k : Key) (down : Bool)
  | deliverKeyPress (k : Key)
  | snapshot
  | soundActive
  deriving DecidableEq, Repr

/-- What the block answers (R237, R90). -/
inductive OpResult where
  /-- An operation without a result was done. -/
  | done
  /-- `Ok` of `step` or `load`. -/
  | ok
  /-- `Err(e)` of `step` (R90). -/
  | stepError (e : Fault)
  /-- A load error (R224). -/
  | loadError (e : LoadError)
  /-- The answer of `snapshot`. -/
  | display (d : Display)
  /-- The answer of `sound_active`. -/
  | sound (on : Bool)
  /-- `step` had no meaning; it never has none (every instruction is modelled). -/
  | refused (r : Refusal)
  deriving DecidableEq, Repr

/-- The result of a `step` that left the machine in `t`: `Err(e)` if it recorded `e`, else `Ok` (R89, R222). -/
def stepResult (t : State) : OpResult :=
  match t.fault with
  | some e => .stepError e
  | none => .ok

/-- `step` as the host sees it (R89, R90): a result and the state after it. With a fault recorded the same error comes
back and nothing changes (R223). -/
def State.hostStep (s : State) : OpResult × State :=
  match step s with
  | .next t => (stepResult t, t)
  | .fault e => (.stepError e, s)
  | .refused r => (.refused r, s)

/-- One host operation (R237). The model's own field `draws` is no part of the state R261 describes and is kept by
`init`, so that draws after it are fresh (log 5). -/
def perform (op : HostOp) (s : State) : OpResult × State :=
  match op with
  | .init font => (.done, { State.init font with draws := s.draws })
  | .load image =>
    match s.load image with
    | .ok t => (.ok, t)
    | .error e => (.loadError e, s)
  | .step => s.hostStep
  | .timerTick => (.done, s.timerTick)
  | .setKeyState k down => (.done, s.setKeyState k down)
  | .deliverKeyPress k => (.done, s.deliverKeyPress k)
  | .snapshot => (.display s.snapshot, s)
  | .soundActive => (.sound s.soundActive, s)

/-- The state after a sequence of host operations, each run to completion before the next (R241). -/
def performAll : List HostOp → State → State
  | [], s => s
  | op :: ops, s => performAll ops (perform op s).2

end Sys2Proof.Machine
end

