-- ==== Sys2Proof/Safety.lean ====
section
/-! DEFINITION. What counts as a safe state and a safe run, in the terms the statements use. -/

namespace Sys2Proof.Machine

/-- The recorded error is one that a step of this very state can raise, with the information R221 and R226 give it: its
`pc` is the value `PC` keeps, and the cause it names still stands in the state, which nothing but `init` changes in
that respect (R222, R223). -/
def Fault.NamesItsCause : Fault → State → Prop
  | .unknownInstruction w pc, s => pc = s.pc ∧ decode w = .error (.unknown w)
  | .stackOverflow pc, s => pc = s.pc ∧ s.depth.val = 16
  | .stackUnderflow pc, s => pc = s.pc ∧ s.depth.val = 0
  | .outOfBoundsAccess a pc, s =>
    pc = s.pc ∧ 0xFFF < a ∧ (a = max s.pc.toNat 0x1000 ∨ a = max s.i.toNat 0x1000)
  | .romWrite a pc, s => pc = s.pc ∧ a = s.i.toNat ∧ a ≤ 0x04F
  | .keyIndexOutOfRange k pc, s => pc = s.pc ∧ 15 < k.toNat ∧ ∃ r : Reg, s.reg r = k

/-- The invariant of the machine. -/
structure State.Inv (s : State) : Prop where
  /-- Memory is in its canonical form: every listed address is below 4096 (R60). -/
  memWf : Memory.wf s.mem = true
  /-- "The largest value any rule can give `PC` is 0x10FE" (R25). -/
  pcBound : s.pc.toNat ≤ 0x10FE
  /-- An occupied stack slot holds a post-fetch address: `PC + 2 <= 0x1000` (R112). -/
  slotBound : ∀ k (h : k < 16), k < s.depth.val → s.stack[k].toNat ≤ 0x1000
  /-- A machine that waits has no fault recorded, and `PC` still holds a fetched address (R203, R204). -/
  waitClean : ∀ r, s.status = .waitingForKey r → s.fault = none ∧ s.pc.toNat ≤ 0xFFE
  /-- A recorded fault names its cause (R221, R222, R226). -/
  faultCause : ∀ e, s.fault = some e → e.NamesItsCause s

/-! ### Frames -/

/-- The frame of an instruction that advances and writes no state but the general registers `regs`: everything else,
memory included, is as before. -/
def State.FrameRegs (s t : State) (regs : List Reg) : Prop :=
  t = { s with v := t.v, pc := s.pc + 2 } ∧ ∀ r, r ∉ regs → t.reg r = s.reg r

/-- The sprite of `n` rows at `I`, drawn with its origin at `(V[x], V[y])`, has a set bit at pixel `(px, py)`: sprite
byte `py - V[y]`, bit `7 - (px - V[x])` (R181, R182). -/
def State.spriteSets (s : State) (x y : Reg) (n px py : Nat) : Bool :=
  decide ((s.reg x).toNat ≤ px ∧ px < (s.reg x).toNat + 8 ∧ (s.reg y).toNat ≤ py ∧ py < (s.reg y).toNat + n) &&
    (s.mem.byteAt (s.base + (py - (s.reg y).toNat))).getLsbD (7 - (px - (s.reg x).toNat))

/-! ### Kinds of operations and instructions -/

/-- `init`, the only host operation that clears a recorded fault (R223). -/
def HostOp.isInit : HostOp → Bool
  | .init _ => true
  | .load _ | .step | .timerTick | .setKeyState _ _ | .deliverKeyPress _ | .snapshot | .soundActive => false

/-- `deliver key press`, which ends a wait (R240). -/
def HostOp.isDelivery : HostOp → Bool
  | .deliverKeyPress _ => true
  | .init _ | .load _ | .step | .timerTick | .setKeyState _ _ | .snapshot | .soundActive => false

end Sys2Proof.Machine

namespace Sys2Proof

/-- The general registers an instruction may write: the last column of the table of R23, `VF` as a flag included. -/
def Instr.writesReg : Instr → Reg → Bool
  | .ldK x _, r | .addK x _, r | .ldR x _, r | .orR x _, r | .andR x _, r | .xorR x _, r | .rnd x _, r
  | .ldVDt x, r => r = x
  | .addR x _, r | .sub x _, r | .subn x _, r | .shr x _, r | .shl x _, r => r = x || r = 15
  | .drw _ _ _, r => r = 15
  | .ldBlock x, r => r ≤ x
  | .cls, _ | .ret, _ | .jp _, _ | .call _, _ | .seK _ _, _ | .sneK _ _, _ | .seR _ _, _ | .sneR _ _, _ | .ldI _, _
  | .jpV0 _, _ | .skp _, _ | .sknp _, _ | .ldVK _, _ | .ldDtV _, _ | .ldStV _, _ | .addI _, _ | .ldF _, _
  | .ldB _, _ | .stBlock _, _ => false

/-- The instructions that may write `I` (R24). -/
def Instr.writesI : Instr → Bool
  | .ldI _ | .addI _ | .ldF _ | .stBlock _ | .ldBlock _ => true
  | .cls | .ret | .jp _ | .call _ | .seK _ _ | .sneK _ _ | .seR _ _ | .ldK _ _ | .addK _ _ | .ldR _ _ | .orR _ _
  | .andR _ _ | .xorR _ _ | .addR _ _ | .sub _ _ | .shr _ _ | .subn _ _ | .shl _ _ | .sneR _ _ | .jpV0 _ | .rnd _ _
  | .drw _ _ _ | .skp _ | .sknp _ | .ldVDt _ | .ldVK _ | .ldDtV _ | .ldStV _ | .ldB _ => false

end Sys2Proof
end

