-- ==== Sys2Proof/Certificates/Slice0/Obligations.lean ====
section
/-! DEFINITION. The statements for the provers. Each docstring names the rules of spec/ its statement formalises, or the
decision (D<n>) and log entry it rests on where it is the model's or the spec's own choice.

How to read a frame: `t = { s with v := t.v, pc := t.pc }` says that every field of `t` but the named ones is that of
`s`; memory not named means every byte of it reads as before. -/

open Sys2Proof Sys2Proof.Machine

/-! ### Encoding -/

/-- Decoding an encoded well-formed instruction gives it back, with every operand, from the word and from its bytes in
memory order. Rests on the opcode values, which are the spec's own (D1, log 6). -/
def Obligations.DecodeInvertsEncode : Prop :=
  ∀ (i : Instr) (rest : List Byte), i.wf = true →
    decode (encode i) = .ok i ∧ decodeBytes (encodeBytes i ++ rest) = .ok (i, rest)

/-- A word that decodes is the word of the instruction it decodes to, so no bit of it is dropped, and that instruction
is well-formed (D1, D5, log 6). -/
def Obligations.EncodeInvertsDecode : Prop :=
  ∀ (w : Word) (i : Instr), decode w = .ok i → encode i = w ∧ i.wf = true

/-- The unknown words are exactly the five classes of R95, every other word decodes, and a step that fetches an unknown
word records `UnknownInstruction` and changes nothing else (D5, log 6). -/
def Obligations.UnknownWordsAreTheFiveClasses : Prop :=
  ∀ w : Word,
    let group := w.toNat / 4096
    let low := w.toNat % 16
    let byte := w.toNat % 256
    let unknown : Prop :=
      (group = 0x0 ∧ w.toNat ≠ 0x00E0 ∧ w.toNat ≠ 0x00EE) ∨
      ((group = 0x5 ∨ group = 0x9) ∧ low ≠ 0) ∨
      (group = 0x8 ∧ low ∈ [0x8, 0x9, 0xA, 0xB, 0xC, 0xD, 0xF]) ∨
      (group = 0xE ∧ byte ≠ 0x9E ∧ byte ≠ 0xA1) ∨
      (group = 0xF ∧ byte ∉ [0x07, 0x0A, 0x15, 0x18, 0x1E, 0x29, 0x33, 0x55, 0x65])
    (unknown → decode w = .error (.unknown w) ∧
      ∀ s : State, s.fault = none → s.status = .running → s.fetch = .ok w →
        step s = .next { s with fault := some (.unknownInstruction w s.pc) }) ∧
    (¬ unknown → ∃ i, decode w = .ok i)

/-- Words of every group, written out from the table of R85 and the decode vectors of 95_test_vectors.md, decode as
listed there (D1, log 6). -/
def Obligations.ListedWordsDecodeAsTabled : Prop :=
  decode 0x00E0 = .ok .cls ∧ decode 0x00EE = .ok .ret ∧ decode 0x1ABC = .ok (.jp 0xABC) ∧
  decode 0x2300 = .ok (.call 0x300) ∧ decode 0x3205 = .ok (.seK 2 0x05) ∧ decode 0x4206 = .ok (.sneK 2 0x06) ∧
  decode 0x5120 = .ok (.seR 1 2) ∧ decode 0x6A42 = .ok (.ldK 10 0x42) ∧ decode 0x7305 = .ok (.addK 3 0x05) ∧
  decode 0x8014 = .ok (.addR 0 1) ∧ decode 0x80A6 = .ok (.shr 0 10) ∧ decode 0x9120 = .ok (.sneR 1 2) ∧
  decode 0xA300 = .ok (.ldI 0x300) ∧ decode 0xB300 = .ok (.jpV0 0x300) ∧ decode 0xC30F = .ok (.rnd 3 0x0F) ∧
  decode 0xD015 = .ok (.drw 0 1 5) ∧ decode 0xD000 = .ok (.drw 0 0 0) ∧ decode 0xE09E = .ok (.skp 0) ∧
  decode 0xF533 = .ok (.ldB 5) ∧ decode 0xF165 = .ok (.ldBlock 1) ∧
  decode 0x0000 = .error (.unknown 0x0000) ∧ decode 0x5121 = .error (.unknown 0x5121) ∧
  decode 0x8008 = .error (.unknown 0x8008) ∧ decode 0xFFFF = .error (.unknown 0xFFFF)

/-! ### The step -/

/-- A step of a running machine with no fault recorded runs the instruction that the two bytes at `PC`, the first in
bits 15..8, decode to (R80, R89; the fault record is D8, log 4). -/
def Obligations.StepRunsTheDecodedInstruction : Prop :=
  ∀ (s : State) (w : Word) (i : Instr), s.fault = none → s.status = .running → s.pc.toNat ≤ 0xFFE →
    w.toNat = (s.mem.byteAt s.pc.toNat).toNat * 256 + (s.mem.byteAt (s.pc.toNat + 1)).toNat →
    decode w = .ok i → step s = exec i s

/-- The order of a step's checks before execution (R225 items 1 to 3): a recorded fault is answered again; a waiting
machine is left as it is; a fetch above 0xFFE records `OutOfBoundsAccess` at the lowest address outside memory.
Rests on D8, D26 and logs 3 and 4. -/
def Obligations.StepChecksInOrder : Prop :=
  ∀ s : State,
    (∀ e, s.fault = some e → step s = .fault e) ∧
    (∀ r, s.fault = none → s.status = .waitingForKey r → step s = .next s) ∧
    (s.fault = none → s.status = .running → s.pc.toNat = 0xFFF →
      step s = .next { s with fault := some (.outOfBoundsAccess 0x1000 s.pc) }) ∧
    (s.fault = none → s.status = .running → 0xFFF < s.pc.toNat →
      step s = .next { s with fault := some (.outOfBoundsAccess s.pc.toNat s.pc) })

/-- No instruction is refused or stops the machine: `exec` always answers a next state, and so does `step` unless a
fault is recorded (log 3 and 4: an error is a next state with the record). -/
def Obligations.EveryInstructionAnswersNext : Prop :=
  (∀ (i : Instr) (s : State), ∃ t, exec i s = .next t) ∧ ∀ s : State, s.fault = none → ∃ t, step s = .next t

/-- Errors are precise: a step either records no error, or changes nothing but the fault record, and the error carries
the `PC` of its instruction (R222; D7, log 11). -/
def Obligations.StepErrorDiscardsTheStep : Prop :=
  ∀ s t : State, step s = .next t → t.fault = none ∨ ∃ e, t = { s with fault := some e } ∧ e.pc = s.pc

/-- A recorded fault is final: whatever the host does short of `init`, the record, the registers, `PC`, `I`, the stack
and the display stay, and every `step` returns the same error and changes nothing (R223; D8, log 11). -/
def Obligations.RecordedFaultIsFinal : Prop :=
  ∀ (s : State) (e : Fault) (ops : List HostOp), s.fault = some e → s.status = .running →
    (∀ op ∈ ops, op.isInit = false) →
    let t := performAll ops s
    t = { s with mem := t.mem, dt := t.dt, st := t.st, key := t.key } ∧ perform .step t = (.stepError e, t)

/-! ### Control flow -/

/-- The `PC` update policy, the whole table of R26, in exact arithmetic: from a fetched `PC` each instruction that
raises no error updates `PC` by its own rule, one that raises an error leaves it, and the delivery of a key adds 2. -/
def Obligations.ProgramCounterPolicy : Prop :=
  ∀ s : State, s.fault = none → s.pc.toNat ≤ 0xFFE →
    (∀ (i : Instr) (t : State), exec i s = .next t → t.fault ≠ none → t.pc = s.pc) ∧
    (∀ (i : Instr) (t : State), exec i s = .next t → t.fault = none →
      match i with
      | .jp nnn | .call nnn => t.pc.toNat = nnn.toNat
      | .jpV0 nnn => t.pc.toNat = nnn.toNat + (s.reg 0).toNat
      | .ret => s.stack[s.depth.val - 1]? = some t.pc
      | .seK x kk => t.pc.toNat = s.pc.toNat + if s.reg x = kk then 4 else 2
      | .sneK x kk => t.pc.toNat = s.pc.toNat + if s.reg x ≠ kk then 4 else 2
      | .seR x y => t.pc.toNat = s.pc.toNat + if s.reg x = s.reg y then 4 else 2
      | .sneR x y => t.pc.toNat = s.pc.toNat + if s.reg x ≠ s.reg y then 4 else 2
      | .skp x => t.pc.toNat = s.pc.toNat + if s.key[(s.reg x).toNat]? = some true then 4 else 2
      | .sknp x => t.pc.toNat = s.pc.toNat + if s.key[(s.reg x).toNat]? = some false then 4 else 2
      | .ldVK _ => t.pc = s.pc
      | _ => t.pc.toNat = s.pc.toNat + 2) ∧
    (∀ (r : Reg) (k : Key), s.status = .waitingForKey r → (s.deliverKeyPress k).pc.toNat = s.pc.toNat + 2)

/-- `RET`: pops the call stack into `PC` and adds nothing (R110); with an empty stack it records `StackUnderflow` and
changes nothing else. That the rest of the state stays and that the error is recorded is D7 and D8 (log 11), that the
outcome is a next state is the model's choice (log 3). -/
def Obligations.RetPopsTheStack : Prop :=
  ∀ s : State,
    (0 < s.depth.val → ∃ t, exec .ret s = .next t ∧ t = { s with pc := t.pc, depth := t.depth } ∧
      t.depth.val + 1 = s.depth.val ∧ s.stack[t.depth.val]? = some t.pc) ∧
    (s.depth.val = 0 → exec .ret s = .next { s with fault := some (.stackUnderflow s.pc) })

/-- `JP nnn` and `JP V0, nnn` (R111, R117): the target exactly, never wrapped, and nothing else changes. -/
def Obligations.JumpsSetPcExactly : Prop :=
  ∀ (s : State) (nnn : Addr12),
    (∃ t, exec (.jp nnn) s = .next t ∧ t = { s with pc := t.pc } ∧ t.pc.toNat = nnn.toNat) ∧
    (∃ t, exec (.jpV0 nnn) s = .next t ∧ t = { s with pc := t.pc } ∧
      t.pc.toNat = nnn.toNat + (s.reg 0).toNat)

/-- `CALL nnn`: pushes the post-fetch `PC + 2` and jumps (R112); with a full stack it records `StackOverflow` and
changes nothing else. That the rest of the state stays and that the error is recorded is D7 and D8 (log 11), that the
outcome is a next state is the model's choice (log 3). -/
def Obligations.CallPushesThePostFetchPc : Prop :=
  ∀ (s : State) (nnn : Addr12),
    (s.depth.val < 16 → s.pc.toNat ≤ 0xFFE → ∃ t w, exec (.call nnn) s = .next t ∧
      t = { s with pc := t.pc, depth := t.depth, stack := t.stack } ∧ t.pc.toNat = nnn.toNat ∧
      t.depth.val = s.depth.val + 1 ∧ t.stack[s.depth.val]? = some w ∧ w.toNat = s.pc.toNat + 2 ∧
      ∀ k, k ≠ s.depth.val → t.stack[k]? = s.stack[k]?) ∧
    (s.depth.val = 16 → exec (.call nnn) s = .next { s with fault := some (.stackOverflow s.pc) })

/-- Call then return: `PC` ends two above the call, the depth and every slot occupied before the call are as before, and
so is all other state but the slots that are not occupied (§8, 95_test_vectors.md W5). -/
def Obligations.CallThenReturnRoundTrip : Prop :=
  ∀ (s : State) (nnn : Addr12), s.depth.val < 16 → s.pc.toNat ≤ 0xFFE →
    ∃ t u, exec (.call nnn) s = .next t ∧ exec .ret t = .next u ∧ t.pc.toNat = nnn.toNat ∧
      u.pc.toNat = s.pc.toNat + 2 ∧ u = { s with pc := u.pc, stack := u.stack } ∧
      ∀ k, k < s.depth.val → u.stack[k]? = s.stack[k]?

/-- The skips on register and literal values (R113 to R116): by 4 when the condition holds, by 2 otherwise, and nothing
else changes; on one register twice, `SE` always and `SNE` never skips. -/
def Obligations.SkipsCompareRegisters : Prop :=
  ∀ (s : State) (x y : Reg) (kk : Byte),
    exec (.seK x kk) s = .next { s with pc := s.pc + if s.reg x = kk then 4 else 2 } ∧
    exec (.sneK x kk) s = .next { s with pc := s.pc + if s.reg x ≠ kk then 4 else 2 } ∧
    exec (.seR x y) s = .next { s with pc := s.pc + if s.reg x = s.reg y then 4 else 2 } ∧
    exec (.sneR x y) s = .next { s with pc := s.pc + if s.reg x ≠ s.reg y then 4 else 2 } ∧
    exec (.seR x x) s = .next { s with pc := s.pc + 4 } ∧
    exec (.sneR x x) s = .next { s with pc := s.pc + 2 }

/-! ### Loads and the ALU -/

/-- `LD Vx, kk`, `ADD Vx, kk` and `LD Vx, Vy` (R130 to R132): the new value of `V[x]`, no other register (so no flag,
unless `x` is 15) and nothing else but `PC`. -/
def Obligations.LiteralAndRegisterLoads : Prop :=
  ∀ (s : State) (x y : Reg) (kk : Byte),
    (∃ t, exec (.ldK x kk) s = .next t ∧ s.FrameRegs t [x] ∧ t.reg x = kk) ∧
    (∃ t, exec (.addK x kk) s = .next t ∧ s.FrameRegs t [x] ∧
      (t.reg x).toNat = ((s.reg x).toNat + kk.toNat) % 256) ∧
    (∃ t, exec (.ldR x y) s = .next t ∧ s.FrameRegs t [x] ∧ t.reg x = s.reg y)

/-- `OR`, `AND` and `XOR` (R133 to R135), bit by bit; no flag; on one register twice, `OR` and `AND` leave it and `XOR`
clears it. -/
def Obligations.BitwiseOperations : Prop :=
  ∀ (s : State) (x y : Reg),
    (∃ t, exec (.orR x y) s = .next t ∧ s.FrameRegs t [x] ∧ (x = y → t.reg x = s.reg x) ∧
      ∀ k, k < 8 → (t.reg x).getLsbD k = ((s.reg x).getLsbD k || (s.reg y).getLsbD k)) ∧
    (∃ t, exec (.andR x y) s = .next t ∧ s.FrameRegs t [x] ∧ (x = y → t.reg x = s.reg x) ∧
      ∀ k, k < 8 → (t.reg x).getLsbD k = ((s.reg x).getLsbD k && (s.reg y).getLsbD k)) ∧
    (∃ t, exec (.xorR x y) s = .next t ∧ s.FrameRegs t [x] ∧ (x = y → t.reg x = 0) ∧
      ∀ k, k < 8 → (t.reg x).getLsbD k = ((s.reg x).getLsbD k ^^ (s.reg y).getLsbD k))

/-- `ADD Vx, Vy`: carry and sum, and every case in which `x` or `y` is `VF` as the pseudocode and corner cases of
41_alu.md give it. The cases with `VF` rest on the sequential reading (D6, log 7). -/
def Obligations.AddWithCarryAndAliasing : Prop :=
  ∀ (s : State) (x y : Reg), ∃ t, exec (.addR x y) s = .next t ∧ s.FrameRegs t [x, 15] ∧
    let a := (s.reg x).toNat
    let b := (s.reg y).toNat
    let carry := if 255 < a + b then 1 else 0
    (x ≠ 15 → y ≠ 15 → (t.reg 15).toNat = carry ∧ (t.reg x).toNat = (a + b) % 256) ∧
    (x ≠ 15 → y = 15 → (t.reg 15).toNat = carry ∧ (t.reg x).toNat = (a + carry) % 256) ∧
    (x = 15 → y ≠ 15 → (t.reg 15).toNat = (carry + b) % 256) ∧
    (x = 15 → y = 15 → (t.reg 15).toNat = 2 * carry)

/-- `SUB Vx, Vy` and `SUBN Vx, Vy`: the strict flag and the difference modulo 256, and every case in which `x` or `y` is
`VF` (D6, log 7). -/
def Obligations.SubtractsWithBorrowAndAliasing : Prop :=
  ∀ (s : State) (x y : Reg),
    let a := (s.reg x).toNat
    let b := (s.reg y).toNat
    (∃ t, exec (.sub x y) s = .next t ∧ s.FrameRegs t [x, 15] ∧
      let flag := if b < a then 1 else 0
      (x ≠ 15 → y ≠ 15 → (t.reg 15).toNat = flag ∧ (t.reg x).toNat = (a + 256 - b) % 256) ∧
      (x ≠ 15 → y = 15 → (t.reg 15).toNat = flag ∧ (t.reg x).toNat = (a + 256 - flag) % 256) ∧
      (x = 15 → y ≠ 15 → (t.reg 15).toNat = (flag + 256 - b) % 256) ∧
      (x = 15 → y = 15 → (t.reg 15).toNat = 0)) ∧
    (∃ t, exec (.subn x y) s = .next t ∧ s.FrameRegs t [x, 15] ∧
      let flag := if a < b then 1 else 0
      (x ≠ 15 → y ≠ 15 → (t.reg 15).toNat = flag ∧ (t.reg x).toNat = (b + 256 - a) % 256) ∧
      (x ≠ 15 → y = 15 → (t.reg 15).toNat = flag ∧ (t.reg x).toNat = (flag + 256 - a) % 256) ∧
      (x = 15 → y ≠ 15 → (t.reg 15).toNat = (b + 256 - flag) % 256) ∧
      (x = 15 → y = 15 → (t.reg 15).toNat = 0))

/-- `SHR Vx {, Vy}` and `SHL Vx {, Vy}`: shifted-out bit and shifted value, for every `y`, which is ignored; and the
value left in `VF` when `x` is 15 (D6, log 7). -/
def Obligations.ShiftsIgnoreY : Prop :=
  ∀ (s : State) (x y : Reg),
    let a := (s.reg x).toNat
    (∃ t, exec (.shr x y) s = .next t ∧ s.FrameRegs t [x, 15] ∧
      (x ≠ 15 → (t.reg 15).toNat = a % 2 ∧ (t.reg x).toNat = a / 2) ∧
      (x = 15 → (t.reg 15).toNat = 0)) ∧
    (∃ t, exec (.shl x y) s = .next t ∧ s.FrameRegs t [x, 15] ∧
      (x ≠ 15 → (t.reg 15).toNat = a / 128 ∧ (t.reg x).toNat = 2 * a % 256) ∧
      (x = 15 → (t.reg 15).toNat = 2 * (a / 128)))

/-- `RND Vx, kk`: the free byte of this draw, masked; the draw is used up; a mask of 0 gives 0 and a mask of 0xFF gives
the byte itself. The free byte is the model's rendering of the input `r` of `step` (D18, log 5). -/
def Obligations.RandomByteIsMasked : Prop :=
  ∀ (s : State) (x : Reg) (kk : Byte), ∃ t, exec (.rnd x kk) s = .next t ∧
    t = { s with v := t.v, pc := s.pc + 2, draws := s.draws + 1 } ∧ (∀ r, r ≠ x → t.reg r = s.reg r) ∧
    (∀ k, k < 8 → (t.reg x).getLsbD k = ((Config.randomByte s.draws).getLsbD k && kk.getLsbD k)) ∧
    (kk = 0 → t.reg x = 0) ∧ (kk = 0xFF → t.reg x = Config.randomByte s.draws)

/-! ### The address register and memory -/

/-- `LD I, nnn` and `ADD I, Vx` (R160, R161): the new `I`, modulo 65536 and not masked; no flag; nothing else but
`PC`. -/
def Obligations.AddressRegisterWrites : Prop :=
  ∀ (s : State) (x : Reg) (nnn : Addr12),
    (∃ t, exec (.ldI nnn) s = .next t ∧ t = { s with i := t.i, pc := s.pc + 2 } ∧ t.i.toNat = nnn.toNat) ∧
    (∃ t, exec (.addI x) s = .next t ∧ t = { s with i := t.i, pc := s.pc + 2 } ∧
      t.i.toNat = (s.i.toNat + (s.reg x).toNat) % 65536)

/-- `LD F, Vx`: `I` is 5 times `V[x]`, exactly, for every `V[x]`; for a digit it is where that digit's glyph starts. The
value for `V[x] > 15` is D15 (log 10). -/
def Obligations.GlyphAddressIsFiveTimes : Prop :=
  ∀ (s : State) (x : Reg), ∃ t, exec (.ldF x) s = .next t ∧ t = { s with i := t.i, pc := s.pc + 2 } ∧
    t.i.toNat = 5 * (s.reg x).toNat

/-- `LD B, Vx`: the three digits at `I`, `I + 1`, `I + 2` and no other byte, or the error and nothing written. The
`RomWrite` case is D11 and the unwrapped bound D9 (log 9). -/
def Obligations.StoreBcdDigits : Prop :=
  ∀ (s : State) (x : Reg), Memory.wf s.mem = true →
    (0x050 ≤ s.base → s.base ≤ 0xFFD → ∃ t, exec (.ldB x) s = .next t ∧
      t = { s with mem := t.mem, pc := s.pc + 2 } ∧
      (t.mem.byteAt s.base).toNat = (s.reg x).toNat / 100 ∧
      (t.mem.byteAt (s.base + 1)).toNat = (s.reg x).toNat / 10 % 10 ∧
      (t.mem.byteAt (s.base + 2)).toNat = (s.reg x).toNat % 10 ∧
      ∀ a, a < s.base ∨ s.base + 3 ≤ a → t.mem.byteAt a = s.mem.byteAt a) ∧
    (0xFFE ≤ s.base →
      exec (.ldB x) s = .next { s with fault := some (.outOfBoundsAccess (max s.base 0x1000) s.pc) }) ∧
    (s.base ≤ 0x04F → exec (.ldB x) s = .next { s with fault := some (.romWrite s.base s.pc) })

/-- `LD [I], Vx`: `V[0]` to `V[x]` at `I` and on, `I` advanced by `x + 1`, and no other byte, or the error and nothing
written (D9, D10, D11, log 9). -/
def Obligations.StoreRegisterBlock : Prop :=
  ∀ (s : State) (x : Reg), Memory.wf s.mem = true →
    (0x050 ≤ s.base → s.base + x.val ≤ 0xFFF → ∃ t, exec (.stBlock x) s = .next t ∧
      t = { s with mem := t.mem, i := t.i, pc := s.pc + 2 } ∧ t.i.toNat = s.i.toNat + x.val + 1 ∧
      (∀ k : Reg, k ≤ x → t.mem.byteAt (s.base + k.val) = s.reg k) ∧
      ∀ a, a < s.base ∨ s.base + x.val < a → t.mem.byteAt a = s.mem.byteAt a) ∧
    (0xFFF < s.base + x.val →
      exec (.stBlock x) s = .next { s with fault := some (.outOfBoundsAccess (max s.base 0x1000) s.pc) }) ∧
    (s.base ≤ 0x04F → exec (.stBlock x) s = .next { s with fault := some (.romWrite s.base s.pc) })

/-- `LD Vx, [I]`: `V[0]` to `V[x]` from `I` and on, the glyph region included, `I` advanced by `x + 1`, or the error and
no register changed (D9, D10, log 9). -/
def Obligations.LoadRegisterBlock : Prop :=
  ∀ (s : State) (x : Reg),
    (s.base + x.val ≤ 0xFFF → ∃ t, exec (.ldBlock x) s = .next t ∧
      t = { s with v := t.v, i := t.i, pc := s.pc + 2 } ∧ t.i.toNat = s.i.toNat + x.val + 1 ∧
      (∀ k : Reg, k ≤ x → t.reg k = s.mem.byteAt (s.base + k.val)) ∧ ∀ k : Reg, x < k → t.reg k = s.reg k) ∧
    (0xFFF < s.base + x.val →
      exec (.ldBlock x) s = .next { s with fault := some (.outOfBoundsAccess (max s.base 0x1000) s.pc) })

/-- Store then load: after `LD [I], Vx`, with `I` set back and the registers overwritten in any way, `LD Vx, [I]`
reproduces `V[0]` to `V[x]` and leaves `I` advanced by `x + 1` (§8, 95_test_vectors.md W10). -/
def Obligations.StoreThenLoadReproducesRegisters : Prop :=
  ∀ (s : State) (x : Reg) (v' : Vector Byte 16), Memory.wf s.mem = true → 0x050 ≤ s.base → s.base + x.val ≤ 0xFFF →
    ∃ t u, exec (.stBlock x) s = .next t ∧ exec (.ldBlock x) { t with v := v', i := s.i } = .next u ∧
      (∀ k : Reg, k ≤ x → u.reg k = s.reg k) ∧ u.i = t.i ∧ u.i.toNat = s.i.toNat + x.val + 1

/-- Memory reads return the last byte written: a write that raises nothing is read back, every other address reads as
before, and the access errors are those of the two primitives (R66, R67, R74; `RomWrite` is D11, log 9). -/
def Obligations.ReadReturnsLastWrite : Prop :=
  ∀ (s : State) (a : Nat) (b : Byte), Memory.wf s.mem = true →
    (0x050 ≤ a → a ≤ 0xFFF → ∃ t, s.memWrite a b = .ok t ∧ t = { s with mem := t.mem } ∧ t.memRead a = .ok b ∧
      ∀ q, q ≠ a → t.memRead q = s.memRead q) ∧
    (0xFFF < a → s.memWrite a b = .error (.outOfBoundsAccess a s.pc) ∧
      s.memRead a = .error (.outOfBoundsAccess a s.pc)) ∧
    (a ≤ 0x04F → s.memWrite a b = .error (.romWrite a s.pc) ∧ s.memRead a = .ok (s.mem.byteAt a))

/-- Self-modifying code: a block store to the word that follows it is what the next step fetches (D25). -/
def Obligations.NextFetchSeesTheStore : Prop :=
  ∀ (s : State) (x : Reg), Memory.wf s.mem = true → 1 ≤ x.val → s.pc.toNat ≤ 0xFFE → s.i = s.pc + 2 →
    0x050 ≤ s.base → s.base + x.val ≤ 0xFFF →
    ∃ t w, exec (.stBlock x) s = .next t ∧ t.fetch = .ok w ∧ w.toNat = (s.reg 0).toNat * 256 + (s.reg 1).toNat

/-- Canonical memories that read alike are equal, so equal memories are equal data (the model's own form). -/
def Obligations.CanonicalMemoriesAreExtensional : Prop :=
  ∀ m m' : Memory, Memory.wf m = true → Memory.wf m' = true →
    (∀ a, a < 4096 → Memory.byteAt m a = Memory.byteAt m' a) → m = m'

/-! ### The display -/

/-- `CLS` (R180): every pixel off, whatever the display showed, and nothing else but `PC`. -/
def Obligations.ClearScreenTurnsEveryPixelOff : Prop :=
  ∀ s : State, ∃ t, exec .cls s = .next t ∧ t = { s with disp := t.disp, pc := s.pc + 2 } ∧
    ∀ px py, px < 64 → py < 32 → Display.pixel t.disp px py = false

/-- `DRW Vx, Vy, n`, in closed form: each pixel of the grid is XORed with the sprite bit that covers it, `VF` is 1 when
a set bit meets a lit pixel and 0 otherwise, nothing wraps, and a sprite that leaves memory records the error and draws
nothing. Bit order D4 (log 8), `n = 0` D16 (log 10), reads of clipped rows D17 and unwrapped bound D9 (log 9). -/
def Obligations.DrawXorsTheSprite : Prop :=
  ∀ (s : State) (x y : Reg) (n : Nat),
    (n = 0 ∨ s.base + n ≤ 0x1000 → ∃ t, exec (.drw x y n) s = .next t ∧
      t = { s with v := t.v, disp := t.disp, pc := s.pc + 2 } ∧ (∀ r, r ≠ 15 → t.reg r = s.reg r) ∧
      (∀ px py, px < 64 → py < 32 →
        Display.pixel t.disp px py = (Display.pixel s.disp px py ^^ s.spriteSets x y n px py)) ∧
      (t.reg 15 = 0 ∨ t.reg 15 = 1) ∧
      (t.reg 15 = 1 ↔ ∃ px py, px < 64 ∧ py < 32 ∧ s.spriteSets x y n px py = true ∧
        Display.pixel s.disp px py = true)) ∧
    (0 < n → 0x1000 < s.base + n →
      exec (.drw x y n) s = .next { s with fault := some (.outOfBoundsAccess (max s.base 0x1000) s.pc) })

/-- Drawing the same sprite twice at the same origin restores the display, and the second draw collides exactly where
the first lit a pixel (§8, 95_test_vectors.md W8). -/
def Obligations.DrawingTwiceRestoresTheDisplay : Prop :=
  ∀ (s : State) (x y : Reg) (n : Nat), x ≠ 15 → y ≠ 15 → (n = 0 ∨ s.base + n ≤ 0x1000) →
    ∃ t u, exec (.drw x y n) s = .next t ∧ exec (.drw x y n) t = .next u ∧ u.disp = s.disp ∧
      (u.reg 15 = 1 ↔ ∃ px py, px < 64 ∧ py < 32 ∧ s.spriteSets x y n px py = true ∧
        Display.pixel s.disp px py = false)

/-! ### Keypad and timers -/

/-- `SKP Vx` and `SKNP Vx`: skip by the key's state, or, for `V[x] > 15`, record `KeyIndexOutOfRange` (D14, log 9). -/
def Obligations.KeySkipsReadTheKeypad : Prop :=
  ∀ (s : State) (x : Reg),
    (∀ h : (s.reg x).toNat < 16,
      exec (.skp x) s = .next { s with pc := s.pc + if s.key[(s.reg x).toNat] then 4 else 2 } ∧
      exec (.sknp x) s = .next { s with pc := s.pc + if s.key[(s.reg x).toNat] then 2 else 4 }) ∧
    (15 < (s.reg x).toNat →
      exec (.skp x) s = .next { s with fault := some (.keyIndexOutOfRange (s.reg x) s.pc) } ∧
      exec (.sknp x) s = .next { s with fault := some (.keyIndexOutOfRange (s.reg x) s.pc) })

/-- `LD Vx, DT`, `LD DT, Vx` and `LD ST, Vx` (R202, R205, R206): the value moved, and nothing else but `PC`; a set
followed by a read, with no tick between them, reads back the value written. -/
def Obligations.TimerTransfers : Prop :=
  ∀ (s : State) (x y : Reg),
    (∃ t, exec (.ldVDt x) s = .next t ∧ s.FrameRegs t [x] ∧ t.reg x = s.dt) ∧
    exec (.ldDtV x) s = .next { s with dt := s.reg x, pc := s.pc + 2 } ∧
    exec (.ldStV x) s = .next { s with st := s.reg x, pc := s.pc + 2 } ∧
    (∃ t u, exec (.ldDtV x) s = .next t ∧ exec (.ldVDt y) t = .next u ∧ u.reg y = s.reg x)

/-- `LD Vx, K` (R203): the machine waits with `x` captured and `PC` unchanged; while it waits a step returns `Ok`, and
every later step, however many, changes nothing. -/
def Obligations.WaitForKeyHoldsThePc : Prop :=
  ∀ (s : State) (x : Reg), s.fault = none →
    ∃ t, exec (.ldVK x) s = .next t ∧ t = { s with status := .waitingForKey x } ∧
      perform .step t = (.ok, t) ∧ ∀ n, performAll (List.replicate n .step) t = t

/-- A wait is left only by `deliver key press`: whatever else the host does short of `init`, the machine still waits
with the same registers and `PC`, and then the delivery of `k` writes `k` to the captured register, adds 2 to `PC` and
runs again (R203, R204, R240, with the derived remarks of R204). -/
def Obligations.WaitEndsOnlyByDelivery : Prop :=
  ∀ (s : State) (r : Reg) (ops : List HostOp) (k : Key), s.fault = none → s.status = .waitingForKey r →
    (∀ op ∈ ops, op.isInit = false ∧ op.isDelivery = false) →
    let t := performAll ops s
    let u := t.deliverKeyPress k
    t = { s with mem := t.mem, dt := t.dt, st := t.st, key := t.key } ∧
      u = { t with v := u.v, pc := s.pc + 2, status := .running } ∧ (u.reg r).toNat = k.val ∧
      ∀ q, q ≠ r → u.reg q = s.reg q

/-- `deliver key press(k)` on a machine that waits and on one that runs: without a wait it has no effect (D20, log 12),
and it never writes the keypad. -/
def Obligations.KeyDeliveryNeedsAWait : Prop :=
  ∀ (s : State) (k : Key),
    (∀ r, s.status = .waitingForKey r → ∃ t, perform (.deliverKeyPress k) s = (.done, t) ∧
      t = { s with v := t.v, pc := s.pc + 2, status := .running } ∧ (t.reg r).toNat = k.val ∧
      ∀ q, q ≠ r → t.reg q = s.reg q) ∧
    (s.status = .running → perform (.deliverKeyPress k) s = (.done, s))

/-- `timer tick()`: both timers down by 1, floored at 0, in every status and with a fault recorded too (D27, log 12),
and nothing else. -/
def Obligations.TickDecrementsBothTimers : Prop :=
  ∀ s : State, ∃ t, perform .timerTick s = (.done, t) ∧ t = { s with dt := t.dt, st := t.st } ∧
    t.dt.toNat = s.dt.toNat - 1 ∧ t.st.toNat = s.st.toNat - 1

/-- The keypad write and the two observations (R234, R235, R236): one key changes, and reading the display or the sound
output changes nothing. -/
def Obligations.KeypadWriteAndObservations : Prop :=
  ∀ (s : State) (k : Key) (down : Bool),
    (∃ t, perform (.setKeyState k down) s = (.done, t) ∧ t = { s with key := t.key } ∧ t.key[k.val]? = some down ∧
      ∀ j, j ≠ k.val → t.key[j]? = s.key[j]?) ∧
    (∃ d, perform .snapshot s = (.display d, s) ∧
      ∀ px py, Display.pixel d px py = Display.pixel s.disp px py) ∧
    (∃ on, perform .soundActive s = (.sound on, s) ∧ (on = true ↔ 0 < s.st.toNat))

/-! ### Initialisation and loading -/

/-- `init(FONT)`: the reset values of R261 for every glyph table, and with the default one the state `State.reset`. Rests
on D3, D8, D12, D13 and D23 (logs 1, 2, 11, 12, 13) and, for `draws`, on log 5. -/
def Obligations.InitGivesTheResetState : Prop :=
  (∀ (s : State) (font : Vector Byte 80), ∃ t, perform (.init font) s = (.done, t) ∧
    (∀ a (h : a < 80), t.mem.byteAt a = font[a]) ∧ (∀ a, 80 ≤ a → t.mem.byteAt a = 0) ∧
    (∀ r, t.reg r = 0) ∧ t.i = 0 ∧ t.pc = 0x200 ∧ t.depth.val = 0 ∧ (∀ k (h : k < 16), t.stack[k] = 0) ∧
    t.dt = 0 ∧ t.st = 0 ∧ (∀ px py, Display.pixel t.disp px py = false) ∧ (∀ k (h : k < 16), t.key[k] = false) ∧
    t.status = .running ∧ t.fault = none ∧ t.draws = s.draws) ∧
  State.init defaultFont = State.reset

/-- The loader (R263, R264): an image of at most 0xE00 bytes goes to 0x200 and on and nothing else changes; a longer one
is refused with its length and nothing changes, for the host's operation too. -/
def Obligations.LoadPlacesTheImage : Prop :=
  ∀ (s : State) (image : List Byte), Memory.wf s.mem = true →
    (image.length ≤ 0xE00 → ∃ t, perform (.load (some image)) s = (.ok, t) ∧ t = { s with mem := t.mem } ∧
      (∀ k (h : k < image.length), t.mem.byteAt (0x200 + k) = image[k]) ∧
      ∀ a, a < 0x200 ∨ 0x200 + image.length ≤ a → t.mem.byteAt a = s.mem.byteAt a) ∧
    (0xE00 < image.length →
      perform (.load (some image)) s = (.loadError (.loadTooLarge image.length), s))

/-- Boot: after `init` and the load of an image, the first step runs the instruction in the image's first two bytes, and
a `load` of no bytes is an error that changes nothing (R265, R266; D22, log 15). -/
def Obligations.LoadedProgramRunsFirst : Prop :=
  ∀ (s : State) (font : Vector Byte 80) (hi lo : Byte) (rest : List Byte) (w : Word) (i : Instr),
    rest.length + 2 ≤ 0xE00 → w.toNat = hi.toNat * 256 + lo.toNat → decode w = .ok i →
    let t := performAll [.init font, .load (some (hi :: lo :: rest))] s
    t.pc = 0x200 ∧ step t = exec i t ∧ perform (.load none) t = (.loadError .loadUnreadable, t)

/-- The placing of a word for the host's check: the very next step runs that instruction (log 15). -/
def Obligations.PlacedWordRunsNext : Prop :=
  ∀ (s : State) (w : Word) (i : Instr), Memory.wf s.mem = true → decode w = .ok i →
    step (s.withFetchWord 16 w.toNat) = exec i (s.withFetchWord 16 w.toNat)

/-! ### Rules of the whole machine -/

/-- Only the two store instructions change memory: every byte reads as before after any other (the addressing summary of
42_index_memory.md and the primitives of 20_memory.md). -/
def Obligations.OnlyStoresChangeMemory : Prop :=
  ∀ (i : Instr) (s t : State), (∀ x, i ≠ .ldB x) → (∀ x, i ≠ .stBlock x) → exec i s = .next t →
    ∀ a, t.mem.byteAt a = s.mem.byteAt a

/-- The glyph region "is never overwritten after initialization": no step and no host operation but `init` changes a
byte at or below 0x04F (R65; D11, log 9). -/
def Obligations.GlyphRegionIsNeverOverwritten : Prop :=
  (∀ (s t : State) (a : Nat), step s = .next t → a ≤ 0x04F → t.mem.byteAt a = s.mem.byteAt a) ∧
  (∀ (s : State) (op : HostOp) (a : Nat), op.isInit = false → a ≤ 0x04F →
    (perform op s).2.mem.byteAt a = s.mem.byteAt a)

/-- The display is "mutated only by the clear-screen and sprite-draw instructions", is all off after initialisation and
clear-screen, and is otherwise kept by every host operation but `step` and `init` (10_state.md section 5). -/
def Obligations.DisplayIsMutatedOnlyByClearAndDraw : Prop :=
  (∀ (i : Instr) (s t : State), exec i s = .next t → t.disp ≠ s.disp → i = .cls ∨ ∃ x y n, i = .drw x y n) ∧
  (∀ (s : State) (op : HostOp), op ≠ .step → op.isInit = false → (perform op s).2.disp = s.disp) ∧
  (∀ (s : State) (font : Vector Byte 80) (index : Nat), index < 2048 →
    Display.rowMajor (perform (.init font) s).2.disp index = false) ∧
  (∀ (s t : State) (index : Nat), index < 2048 → exec .cls s = .next t → Display.rowMajor t.disp index = false)

/-- Who writes the timers and the keypad (10_state.md sections 4 and 5): `DT` only `Fx15`, `ST` only `Fx18`, neither
decremented by a step; the keypad no instruction at all; and of the other host operations only `timer tick` and `set key state`. -/
def Obligations.TimersAndKeypadHaveOneWriterEach : Prop :=
  (∀ (i : Instr) (s t : State), exec i s = .next t → t.key = s.key ∧
    ((∀ x, i ≠ .ldDtV x) → t.dt = s.dt) ∧ ((∀ x, i ≠ .ldStV x) → t.st = s.st)) ∧
  (∀ (s : State) (op : HostOp), op ≠ .step → op.isInit = false →
    (op ≠ .timerTick → (perform op s).2.dt = s.dt ∧ (perform op s).2.st = s.st) ∧
    ((∀ k down, op ≠ .setKeyState k down) → (perform op s).2.key = s.key))

/-- An instruction writes no general register but those the table of R23 gives it, `VF` as a flag included. -/
def Obligations.RegistersAreWrittenAsTabled : Prop :=
  ∀ (i : Instr) (s t : State) (r : Reg), exec i s = .next t → i.writesReg r = false → t.reg r = s.reg r

/-- Who writes the rest of the state: `I` only the five instructions R24 lists, the call stack only call and return, the
run status only the wait for a key, and the model's draw counter only the random instruction (R24, R27, R33, log 5). -/
def Obligations.OtherStateIsWrittenAsStated : Prop :=
  ∀ (i : Instr) (s t : State), exec i s = .next t →
    (i.writesI = false → t.i = s.i) ∧
    (i ≠ .ret → (∀ nnn, i ≠ .call nnn) → t.depth = s.depth ∧ t.stack = s.stack) ∧
    ((∀ x, i ≠ .ldVK x) → t.status = s.status) ∧
    ((∀ x kk, i ≠ .rnd x kk) → t.draws = s.draws)

/-- What a program can observe: `DT` only by `Fx07`, the keypad only by the two key skips, the sound timer and the
display contents by nothing but, for the display, a draw, and the random byte only by `Cxkk`. Two states that differ
only there go on differing only there (R22, R30, R230, R31; the random byte: D18, log 5). -/
def Obligations.UnreadStateDoesNotInfluence : Prop :=
  ∀ (i : Instr) (s t : State), exec i s = .next t →
    (∀ dt', (∀ x, i ≠ .ldVDt x) → (∀ x, i ≠ .ldDtV x) → exec i { s with dt := dt' } = .next { t with dt := dt' }) ∧
    (∀ st', (∀ x, i ≠ .ldStV x) → exec i { s with st := st' } = .next { t with st := st' }) ∧
    (∀ key', (∀ x, i ≠ .skp x) → (∀ x, i ≠ .sknp x) →
      exec i { s with key := key' } = .next { t with key := key' }) ∧
    (∀ disp', i ≠ .cls → (∀ x y n, i ≠ .drw x y n) →
      exec i { s with disp := disp' } = .next { t with disp := disp' }) ∧
    (∀ n, (∀ x kk, i ≠ .rnd x kk) → exec i { s with draws := n } = .next { t with draws := n })

/-! ### The invariant -/

/-- The machine starts inside its invariant: `State.reset`, and `init` with any glyph table. -/
def Obligations.InvariantHoldsAfterInit : Prop :=
  State.reset.Inv ∧ ∀ font : Vector Byte 80, (State.init font).Inv

/-- Every step keeps the invariant, from every state that has it: memory stays canonical, `PC` never passes 0x10FE and
never wraps, the stacked addresses stay post-fetch addresses, a waiting machine has no fault, and a recorded fault names
its cause (R25, R60, R112, R204, R222, R226). -/
def Obligations.StepKeepsTheInvariant : Prop :=
  ∀ s t : State, s.Inv → step s = .next t → t.Inv

/-- Every operation of the host interface keeps the invariant (R237, R241). -/
def Obligations.HostOperationsKeepTheInvariant : Prop :=
  ∀ (s : State) (op : HostOp), s.Inv → (perform op s).2.Inv

/-- Every interleaving of host operations after initialisation stays inside the invariant, and every answer of `step`
along it is `Ok` or one of the six step errors, never a refusal (R90, R237, R241). -/
def Obligations.EveryRunStaysInTheInvariant : Prop :=
  ∀ (font : Vector Byte 80) (ops : List HostOp),
    let t := performAll ops (State.init font)
    t.Inv ∧ ((perform .step t).1 = .ok ∨ ∃ e, (perform .step t).1 = .stepError e)
end

