-- ==== Sys2Proof/Laws/Decode.lean ====
section
/-! SUPPORT. Instruction words as numbers: the value of a built word, the value of each field, and so the fields of a
built word and a word rebuilt from its fields (spec/00_scope.md R10; spec/30_encoding.md R82). -/

namespace Sys2Proof

/-! ### Values of fields and of built words -/

theorem nibble_eq (w : Word) (lo : Nat) : nibble w lo = w.toNat / 2 ^ lo % 16 := by
  simp [nibble, Nat.shiftRight_eq_div_pow]

theorem fieldKK_toNat (w : Word) : (fieldKK w).toNat = w.toNat % 256 := by simp [fieldKK]

theorem fieldNNN_toNat (w : Word) : (fieldNNN w).toNat = w.toNat % 4096 := by simp [fieldNNN]

/-- An appended value, as a number. -/
theorem append_toNat {n m : Nat} (a : BitVec n) (b : BitVec m) : (a ++ b).toNat = a.toNat * 2 ^ m + b.toNat := by
  rw [BitVec.toNat_append, ← Nat.shiftLeft_add_eq_or_of_lt b.isLt, Nat.shiftLeft_eq]

theorem bigEndian_toNat (hi lo : Byte) : (bigEndian hi lo).toNat = hi.toNat * 256 + lo.toNat := append_toNat hi lo

theorem wordNNN_toNat (g : BitVec 4) (nnn : Addr12) : (wordNNN g nnn).toNat = g.toNat * 4096 + nnn.toNat :=
  append_toNat g nnn

theorem wordXKK_toNat (g : BitVec 4) (x : Reg) (kk : Byte) :
    (wordXKK g x kk).toNat = g.toNat * 4096 + x.val * 256 + kk.toNat := by
  have hx := x.isLt
  have h1 : (wordXKK g x kk).toNat = ((g ++ BitVec.ofNat 4 x.val).toNat) * 256 + kk.toNat := append_toNat _ kk
  rw [h1, append_toNat, BitVec.toNat_ofNat]
  omega

theorem wordXYN_toNat (g : BitVec 4) (x y : Reg) (n : Nat) :
    (wordXYN g x y n).toNat = g.toNat * 4096 + x.val * 256 + y.val * 16 + n % 16 := by
  have hx := x.isLt
  have hy := y.isLt
  have h1 : (wordXYN g x y n).toNat =
      ((g ++ BitVec.ofNat 4 x.val) ++ BitVec.ofNat 4 y.val).toNat * 16 + (BitVec.ofNat 4 n).toNat := append_toNat _ _
  rw [h1, append_toNat, append_toNat, BitVec.toNat_ofNat, BitVec.toNat_ofNat, BitVec.toNat_ofNat]
  omega

/-! ### Fields of a built word -/

theorem group_wordNNN (g : BitVec 4) (nnn : Addr12) : nibble (wordNNN g nnn) 12 = g.toNat := by
  have := g.isLt; have := nnn.isLt
  rw [nibble_eq, wordNNN_toNat]; omega

theorem fieldNNN_wordNNN (g : BitVec 4) (nnn : Addr12) : fieldNNN (wordNNN g nnn) = nnn := by
  have := nnn.isLt
  apply BitVec.eq_of_toNat_eq
  rw [fieldNNN_toNat, wordNNN_toNat]; omega

theorem group_wordXKK (g : BitVec 4) (x : Reg) (kk : Byte) : nibble (wordXKK g x kk) 12 = g.toNat := by
  have := g.isLt; have := x.isLt; have := kk.isLt
  rw [nibble_eq, wordXKK_toNat]; omega

theorem fieldX_wordXKK (g : BitVec 4) (x : Reg) (kk : Byte) : fieldX (wordXKK g x kk) = x := by
  have := g.isLt; have := x.isLt; have := kk.isLt
  apply Fin.ext
  simp only [fieldX, nibble_eq, wordXKK_toNat]; omega

theorem fieldKK_wordXKK (g : BitVec 4) (x : Reg) (kk : Byte) : fieldKK (wordXKK g x kk) = kk := by
  have := kk.isLt
  apply BitVec.eq_of_toNat_eq
  rw [fieldKK_toNat, wordXKK_toNat]; omega

theorem group_wordXYN (g : BitVec 4) (x y : Reg) (n : Nat) : nibble (wordXYN g x y n) 12 = g.toNat := by
  have := g.isLt; have := x.isLt; have := y.isLt
  rw [nibble_eq, wordXYN_toNat]; omega

theorem fieldX_wordXYN (g : BitVec 4) (x y : Reg) (n : Nat) : fieldX (wordXYN g x y n) = x := by
  have := g.isLt; have := x.isLt; have := y.isLt
  apply Fin.ext
  simp only [fieldX, nibble_eq, wordXYN_toNat]; omega

theorem fieldY_wordXYN (g : BitVec 4) (x y : Reg) (n : Nat) : fieldY (wordXYN g x y n) = y := by
  have := g.isLt; have := x.isLt; have := y.isLt
  apply Fin.ext
  simp only [fieldY, nibble_eq, wordXYN_toNat]; omega

theorem fieldN_wordXYN (g : BitVec 4) (x y : Reg) (n : Nat) : fieldN (wordXYN g x y n) = n % 16 := by
  simp only [fieldN, nibble_eq, wordXYN_toNat]; omega

/-! ### A word rebuilt from its fields -/

theorem wordNNN_fields (w : Word) (g : BitVec 4) (h : nibble w 12 = g.toNat) : wordNNN g (fieldNNN w) = w := by
  have := w.isLt
  apply BitVec.eq_of_toNat_eq
  rw [wordNNN_toNat, fieldNNN_toNat, ← h, nibble_eq]; omega

theorem wordXKK_fields (w : Word) (g : BitVec 4) (kk : Byte) (h : nibble w 12 = g.toNat)
    (hk : (fieldKK w).toNat = kk.toNat) : wordXKK g (fieldX w) kk = w := by
  have := w.isLt
  apply BitVec.eq_of_toNat_eq
  rw [wordXKK_toNat, ← h, ← hk, fieldKK_toNat]
  simp only [fieldX, nibble_eq]; omega

theorem wordXYN_fields (w : Word) (g : BitVec 4) (n : Nat) (h : nibble w 12 = g.toNat) (hn : fieldN w = n % 16) :
    wordXYN g (fieldX w) (fieldY w) n = w := by
  have := w.isLt
  apply BitVec.eq_of_toNat_eq
  rw [wordXYN_toNat, ← h, ← hn]
  simp only [fieldX, fieldY, fieldN, nibble_eq]; omega

/-! ### Bytes of a word -/

/-- The bytes of a word, read back big-endian, are the word (R70). -/
theorem bigEndian_wordBytes (w : Word) : bigEndian (w.extractLsb' 8 8) (w.extractLsb' 0 8) = w := by
  have := w.isLt
  apply BitVec.eq_of_toNat_eq
  rw [bigEndian_toNat]
  simp only [BitVec.extractLsb'_toNat, Nat.shiftRight_eq_div_pow]
  omega

end Sys2Proof
end

