-- ==== Sys2Proof/Laws/State.lean ====
section
/-! SUPPORT. One lemma per field per update of the state, true by definition, so that no later proof unfolds a record
update; and the small lemmas of registers, outcomes and the call stack. -/

namespace Sys2Proof.Machine

/-! ### `setReg` -/

@[simp] theorem State.setReg_mem (s : State) (r : Reg) (b : Byte) : (s.setReg r b).mem = s.mem := rfl
@[simp] theorem State.setReg_v (s : State) (r : Reg) (b : Byte) : (s.setReg r b).v = s.v.set r.val b := rfl
@[simp] theorem State.setReg_i (s : State) (r : Reg) (b : Byte) : (s.setReg r b).i = s.i := rfl
@[simp] theorem State.setReg_pc (s : State) (r : Reg) (b : Byte) : (s.setReg r b).pc = s.pc := rfl
@[simp] theorem State.setReg_depth (s : State) (r : Reg) (b : Byte) : (s.setReg r b).depth = s.depth := rfl
@[simp] theorem State.setReg_stack (s : State) (r : Reg) (b : Byte) : (s.setReg r b).stack = s.stack := rfl
@[simp] theorem State.setReg_dt (s : State) (r : Reg) (b : Byte) : (s.setReg r b).dt = s.dt := rfl
@[simp] theorem State.setReg_st (s : State) (r : Reg) (b : Byte) : (s.setReg r b).st = s.st := rfl
@[simp] theorem State.setReg_disp (s : State) (r : Reg) (b : Byte) : (s.setReg r b).disp = s.disp := rfl
@[simp] theorem State.setReg_key (s : State) (r : Reg) (b : Byte) : (s.setReg r b).key = s.key := rfl
@[simp] theorem State.setReg_status (s : State) (r : Reg) (b : Byte) : (s.setReg r b).status = s.status := rfl
@[simp] theorem State.setReg_fault (s : State) (r : Reg) (b : Byte) : (s.setReg r b).fault = s.fault := rfl
@[simp] theorem State.setReg_draws (s : State) (r : Reg) (b : Byte) : (s.setReg r b).draws = s.draws := rfl

/-! ### `setFlag` -/

@[simp] theorem State.setFlag_mem (s : State) (b : Byte) : (s.setFlag b).mem = s.mem := rfl
@[simp] theorem State.setFlag_v (s : State) (b : Byte) : (s.setFlag b).v = s.v.set 15 b := rfl
@[simp] theorem State.setFlag_i (s : State) (b : Byte) : (s.setFlag b).i = s.i := rfl
@[simp] theorem State.setFlag_pc (s : State) (b : Byte) : (s.setFlag b).pc = s.pc := rfl
@[simp] theorem State.setFlag_depth (s : State) (b : Byte) : (s.setFlag b).depth = s.depth := rfl
@[simp] theorem State.setFlag_stack (s : State) (b : Byte) : (s.setFlag b).stack = s.stack := rfl
@[simp] theorem State.setFlag_dt (s : State) (b : Byte) : (s.setFlag b).dt = s.dt := rfl
@[simp] theorem State.setFlag_st (s : State) (b : Byte) : (s.setFlag b).st = s.st := rfl
@[simp] theorem State.setFlag_disp (s : State) (b : Byte) : (s.setFlag b).disp = s.disp := rfl
@[simp] theorem State.setFlag_key (s : State) (b : Byte) : (s.setFlag b).key = s.key := rfl
@[simp] theorem State.setFlag_status (s : State) (b : Byte) : (s.setFlag b).status = s.status := rfl
@[simp] theorem State.setFlag_fault (s : State) (b : Byte) : (s.setFlag b).fault = s.fault := rfl
@[simp] theorem State.setFlag_draws (s : State) (b : Byte) : (s.setFlag b).draws = s.draws := rfl

/-! ### `setI` -/

@[simp] theorem State.setI_mem (s : State) (w : Word) : (s.setI w).mem = s.mem := rfl
@[simp] theorem State.setI_v (s : State) (w : Word) : (s.setI w).v = s.v := rfl
@[simp] theorem State.setI_i (s : State) (w : Word) : (s.setI w).i = w := rfl
@[simp] theorem State.setI_pc (s : State) (w : Word) : (s.setI w).pc = s.pc := rfl
@[simp] theorem State.setI_depth (s : State) (w : Word) : (s.setI w).depth = s.depth := rfl
@[simp] theorem State.setI_stack (s : State) (w : Word) : (s.setI w).stack = s.stack := rfl
@[simp] theorem State.setI_dt (s : State) (w : Word) : (s.setI w).dt = s.dt := rfl
@[simp] theorem State.setI_st (s : State) (w : Word) : (s.setI w).st = s.st := rfl
@[simp] theorem State.setI_disp (s : State) (w : Word) : (s.setI w).disp = s.disp := rfl
@[simp] theorem State.setI_key (s : State) (w : Word) : (s.setI w).key = s.key := rfl
@[simp] theorem State.setI_status (s : State) (w : Word) : (s.setI w).status = s.status := rfl
@[simp] theorem State.setI_fault (s : State) (w : Word) : (s.setI w).fault = s.fault := rfl
@[simp] theorem State.setI_draws (s : State) (w : Word) : (s.setI w).draws = s.draws := rfl

/-! ### `setPc` -/

@[simp] theorem State.setPc_mem (s : State) (w : Word) : (s.setPc w).mem = s.mem := rfl
@[simp] theorem State.setPc_v (s : State) (w : Word) : (s.setPc w).v = s.v := rfl
@[simp] theorem State.setPc_i (s : State) (w : Word) : (s.setPc w).i = s.i := rfl
@[simp] theorem State.setPc_pc (s : State) (w : Word) : (s.setPc w).pc = w := rfl
@[simp] theorem State.setPc_depth (s : State) (w : Word) : (s.setPc w).depth = s.depth := rfl
@[simp] theorem State.setPc_stack (s : State) (w : Word) : (s.setPc w).stack = s.stack := rfl
@[simp] theorem State.setPc_dt (s : State) (w : Word) : (s.setPc w).dt = s.dt := rfl
@[simp] theorem State.setPc_st (s : State) (w : Word) : (s.setPc w).st = s.st := rfl
@[simp] theorem State.setPc_disp (s : State) (w : Word) : (s.setPc w).disp = s.disp := rfl
@[simp] theorem State.setPc_key (s : State) (w : Word) : (s.setPc w).key = s.key := rfl
@[simp] theorem State.setPc_status (s : State) (w : Word) : (s.setPc w).status = s.status := rfl
@[simp] theorem State.setPc_fault (s : State) (w : Word) : (s.setPc w).fault = s.fault := rfl
@[simp] theorem State.setPc_draws (s : State) (w : Word) : (s.setPc w).draws = s.draws := rfl

/-! ### `advance` -/

@[simp] theorem State.advance_mem (s : State) : (s.advance).mem = s.mem := rfl
@[simp] theorem State.advance_v (s : State) : (s.advance).v = s.v := rfl
@[simp] theorem State.advance_i (s : State) : (s.advance).i = s.i := rfl
@[simp] theorem State.advance_pc (s : State) : (s.advance).pc = s.pc + 2 := rfl
@[simp] theorem State.advance_depth (s : State) : (s.advance).depth = s.depth := rfl
@[simp] theorem State.advance_stack (s : State) : (s.advance).stack = s.stack := rfl
@[simp] theorem State.advance_dt (s : State) : (s.advance).dt = s.dt := rfl
@[simp] theorem State.advance_st (s : State) : (s.advance).st = s.st := rfl
@[simp] theorem State.advance_disp (s : State) : (s.advance).disp = s.disp := rfl
@[simp] theorem State.advance_key (s : State) : (s.advance).key = s.key := rfl
@[simp] theorem State.advance_status (s : State) : (s.advance).status = s.status := rfl
@[simp] theorem State.advance_fault (s : State) : (s.advance).fault = s.fault := rfl
@[simp] theorem State.advance_draws (s : State) : (s.advance).draws = s.draws := rfl

/-! ### `drawn` -/

@[simp] theorem State.drawn_mem (s : State) : (s.drawn).mem = s.mem := rfl
@[simp] theorem State.drawn_v (s : State) : (s.drawn).v = s.v := rfl
@[simp] theorem State.drawn_i (s : State) : (s.drawn).i = s.i := rfl
@[simp] theorem State.drawn_pc (s : State) : (s.drawn).pc = s.pc := rfl
@[simp] theorem State.drawn_depth (s : State) : (s.drawn).depth = s.depth := rfl
@[simp] theorem State.drawn_stack (s : State) : (s.drawn).stack = s.stack := rfl
@[simp] theorem State.drawn_dt (s : State) : (s.drawn).dt = s.dt := rfl
@[simp] theorem State.drawn_st (s : State) : (s.drawn).st = s.st := rfl
@[simp] theorem State.drawn_disp (s : State) : (s.drawn).disp = s.disp := rfl
@[simp] theorem State.drawn_key (s : State) : (s.drawn).key = s.key := rfl
@[simp] theorem State.drawn_status (s : State) : (s.drawn).status = s.status := rfl
@[simp] theorem State.drawn_fault (s : State) : (s.drawn).fault = s.fault := rfl
@[simp] theorem State.drawn_draws (s : State) : (s.drawn).draws = s.draws + 1 := rfl

/-! ### `recordFault` -/

@[simp] theorem State.recordFault_mem (s : State) (e : Fault) : (s.recordFault e).mem = s.mem := rfl
@[simp] theorem State.recordFault_v (s : State) (e : Fault) : (s.recordFault e).v = s.v := rfl
@[simp] theorem State.recordFault_i (s : State) (e : Fault) : (s.recordFault e).i = s.i := rfl
@[simp] theorem State.recordFault_pc (s : State) (e : Fault) : (s.recordFault e).pc = s.pc := rfl
@[simp] theorem State.recordFault_depth (s : State) (e : Fault) : (s.recordFault e).depth = s.depth := rfl
@[simp] theorem State.recordFault_stack (s : State) (e : Fault) : (s.recordFault e).stack = s.stack := rfl
@[simp] theorem State.recordFault_dt (s : State) (e : Fault) : (s.recordFault e).dt = s.dt := rfl
@[simp] theorem State.recordFault_st (s : State) (e : Fault) : (s.recordFault e).st = s.st := rfl
@[simp] theorem State.recordFault_disp (s : State) (e : Fault) : (s.recordFault e).disp = s.disp := rfl
@[simp] theorem State.recordFault_key (s : State) (e : Fault) : (s.recordFault e).key = s.key := rfl
@[simp] theorem State.recordFault_status (s : State) (e : Fault) : (s.recordFault e).status = s.status := rfl
@[simp] theorem State.recordFault_fault (s : State) (e : Fault) : (s.recordFault e).fault = some e := rfl
@[simp] theorem State.recordFault_draws (s : State) (e : Fault) : (s.recordFault e).draws = s.draws := rfl

/-! ### `skipIf` -/

@[simp] theorem State.skipIf_mem (s : State) (c : Bool) : (s.skipIf c).mem = s.mem := by
  cases c <;> rfl
@[simp] theorem State.skipIf_v (s : State) (c : Bool) : (s.skipIf c).v = s.v := by
  cases c <;> rfl
@[simp] theorem State.skipIf_i (s : State) (c : Bool) : (s.skipIf c).i = s.i := by
  cases c <;> rfl
@[simp] theorem State.skipIf_pc (s : State) (c : Bool) :
    (s.skipIf c).pc = if c then s.pc + 4 else s.pc + 2 := by
  cases c <;> rfl
@[simp] theorem State.skipIf_depth (s : State) (c : Bool) : (s.skipIf c).depth = s.depth := by
  cases c <;> rfl
@[simp] theorem State.skipIf_stack (s : State) (c : Bool) : (s.skipIf c).stack = s.stack := by
  cases c <;> rfl
@[simp] theorem State.skipIf_dt (s : State) (c : Bool) : (s.skipIf c).dt = s.dt := by
  cases c <;> rfl
@[simp] theorem State.skipIf_st (s : State) (c : Bool) : (s.skipIf c).st = s.st := by
  cases c <;> rfl
@[simp] theorem State.skipIf_disp (s : State) (c : Bool) : (s.skipIf c).disp = s.disp := by
  cases c <;> rfl
@[simp] theorem State.skipIf_key (s : State) (c : Bool) : (s.skipIf c).key = s.key := by
  cases c <;> rfl
@[simp] theorem State.skipIf_status (s : State) (c : Bool) : (s.skipIf c).status = s.status := by
  cases c <;> rfl
@[simp] theorem State.skipIf_fault (s : State) (c : Bool) : (s.skipIf c).fault = s.fault := by
  cases c <;> rfl
@[simp] theorem State.skipIf_draws (s : State) (c : Bool) : (s.skipIf c).draws = s.draws := by
  cases c <;> rfl

/-! ### Registers -/

/-- A register written reads as the byte written. -/
@[simp] theorem State.reg_setReg_same (s : State) (r : Reg) (b : Byte) : (s.setReg r b).reg r = b := by
  simp [State.reg]

/-- Writing one register leaves every other one alone. -/
theorem State.reg_setReg_other (s : State) {r q : Reg} (b : Byte) (h : q ≠ r) : (s.setReg r b).reg q = s.reg q := by
  have : r.val ≠ q.val := fun e => h (Fin.ext e.symm)
  simp [State.reg, this]

/-- A register after a register write, by cases. -/
theorem State.reg_setReg (s : State) (r q : Reg) (b : Byte) :
    (s.setReg r b).reg q = if q = r then b else s.reg q := by
  split
  · next h => rw [h, State.reg_setReg_same]
  · next h => exact State.reg_setReg_other s b h

theorem State.setFlag_eq_setReg (s : State) (b : Byte) : s.setFlag b = s.setReg 15 b := rfl

@[simp] theorem State.reg_setI (s : State) (w : Word) (r : Reg) : (s.setI w).reg r = s.reg r := rfl
@[simp] theorem State.reg_setPc (s : State) (w : Word) (r : Reg) : (s.setPc w).reg r = s.reg r := rfl
@[simp] theorem State.reg_advance (s : State) (r : Reg) : s.advance.reg r = s.reg r := rfl
@[simp] theorem State.reg_drawn (s : State) (r : Reg) : s.drawn.reg r = s.reg r := rfl
@[simp] theorem State.reg_recordFault (s : State) (e : Fault) (r : Reg) : (s.recordFault e).reg r = s.reg r := rfl
@[simp] theorem State.reg_skipIf (s : State) (c : Bool) (r : Reg) : (s.skipIf c).reg r = s.reg r := by
  cases c <;> rfl

/-- Loading registers from `k` on writes register `k + j` with byte `j` and leaves the others alone. -/
theorem State.reg_loadRegs (bs : List Byte) : ∀ (s : State) (k : Nat), k + bs.length ≤ 16 → ∀ r : Reg,
    (s.loadRegs k bs).reg r =
      if h : k ≤ r.val ∧ r.val < k + bs.length then bs[r.val - k]'(by omega) else s.reg r := by
  induction bs with
  | nil =>
    intro s k _ r
    have : ¬ (k ≤ r.val ∧ r.val < k + ([] : List Byte).length) := by simp
    rw [dif_neg this]; rfl
  | cons b bs ih =>
    intro s k hk r
    simp only [List.length_cons] at hk
    have hk16 : k < 16 := by omega
    rw [State.loadRegs, dif_pos hk16, ih _ _ (by omega) r]
    by_cases h1 : k + 1 ≤ r.val ∧ r.val < k + 1 + bs.length
    · have h2 : k ≤ r.val ∧ r.val < k + (b :: bs).length := by simp only [List.length_cons]; omega
      rw [dif_pos h1, dif_pos h2]
      have h3 : r.val - k = (r.val - (k + 1)) + 1 := by omega
      simp only [h3, List.getElem_cons_succ]
    · rw [dif_neg h1]
      by_cases h2 : r.val = k
      · have h3 : k ≤ r.val ∧ r.val < k + (b :: bs).length := by simp only [List.length_cons]; omega
        subst h2
        rw [dif_pos h3]
        simp
      · have h3 : ¬ (k ≤ r.val ∧ r.val < k + (b :: bs).length) := by simp only [List.length_cons]; omega
        rw [dif_neg h3]
        exact State.reg_setReg_other s b fun e => h2 (by rw [e])

/-- Loading registers changes nothing but the registers. -/
theorem State.loadRegs_frame (bs : List Byte) : ∀ (s : State) (k : Nat),
    s.loadRegs k bs = { s with v := (s.loadRegs k bs).v } := by
  induction bs with
  | nil => intro s k; rfl
  | cons b bs ih =>
    intro s k
    rw [State.loadRegs]
    split
    · rw [ih]; rfl
    · rfl

/-! ### Outcomes -/

@[simp] theorem State.complete_ok (s t : State) : s.complete (.ok t) = .next t := rfl
@[simp] theorem State.complete_error (s : State) (e : Fault) : s.complete (.error e) = .next (s.recordFault e) := rfl
@[simp] theorem State.raise_eq (s : State) (e : Fault) : s.raise e = .next (s.recordFault e) := rfl

/-- Everything a completed body can do: its own state, or the error recorded on the state before. -/
theorem State.complete_cases {s t : State} {r : Except Fault State} (h : s.complete r = .next t) :
    r = .ok t ∨ ∃ e, r = .error e ∧ t = s.recordFault e := by
  cases r with
  | ok u => exact .inl (by simpa using h)
  | error e => exact .inr ⟨e, rfl, by simpa using h.symm⟩

/-! ### The call stack -/

/-- Everything a push can do (R28). -/
theorem State.push_eq (s : State) (w : Word) :
    (∃ h : s.depth.val < 16, s.push w =
      .ok { s with stack := s.stack.set s.depth.val w, depth := ⟨s.depth.val + 1, by omega⟩ }) ∨
    (s.depth.val = 16 ∧ s.push w = .error (.stackOverflow s.pc)) := by
  unfold State.push
  by_cases h : s.depth.val < 16
  · exact .inl ⟨h, by rw [dif_pos h]⟩
  · exact .inr ⟨by have := s.depth.isLt; omega, by rw [dif_neg h]⟩

/-- Everything a pop can do (R28). -/
theorem State.pop_eq (s : State) :
    (∃ h : 0 < s.depth.val, s.pop =
      .ok (s.stack[s.depth.val - 1]'(by omega), { s with depth := ⟨s.depth.val - 1, by omega⟩ })) ∨
    (s.depth.val = 0 ∧ s.pop = .error (.stackUnderflow s.pc)) := by
  unfold State.pop
  by_cases h : 0 < s.depth.val
  · exact .inl ⟨h, by rw [dif_pos h]⟩
  · exact .inr ⟨by omega, by rw [dif_neg h]⟩

/-! ### Keys -/

/-- A register value names a key exactly when it is at most 15 (R200). -/
theorem State.keyDown?_eq (s : State) (k : Byte) :
    s.keyDown? k = if h : k.toNat < 16 then some s.key[k.toNat] else none := by
  unfold State.keyDown?
  split
  · next h => simp [h]
  · next h => simp; omega

end Sys2Proof.Machine
end

