-- ==== Sys2Proof/Laws/Memory.lean ====
section
/-! SUPPORT. Memory: read after write, the canonical form kept by every operation, and equality of memories that read
alike (spec/20_memory.md R60, R66, R67, R74). -/

namespace Sys2Proof.Machine

/-! ### The canonical form -/

theorem Memory.wfFrom_cons {lo k : Nat} {b : Byte} {m : Memory} :
    Memory.wfFrom lo ((k, b) :: m) = true ↔
      lo ≤ k ∧ k < 4096 ∧ b ≠ unlistedByte k ∧ Memory.wfFrom (k + 1) m = true := by
  simp [Memory.wfFrom, and_assoc]

theorem Memory.wfFrom_mono {lo lo' : Nat} (h : lo' ≤ lo) {m : Memory} (hm : Memory.wfFrom lo m = true) :
    Memory.wfFrom lo' m = true := by
  cases m with
  | nil => rfl
  | cons c m =>
    obtain ⟨k, b⟩ := c
    rw [Memory.wfFrom_cons] at hm ⊢
    exact ⟨by omega, hm.2⟩

/-- Below its first possible entry, a canonical memory reads as its reset contents. -/
theorem Memory.byteAt_below {m : Memory} : ∀ {lo a : Nat}, Memory.wfFrom lo m = true → a < lo →
    Memory.byteAt m a = unlistedByte a := by
  induction m with
  | nil => intros; rfl
  | cons c m ih =>
    obtain ⟨k, b⟩ := c
    intro lo a hm ha
    rw [Memory.wfFrom_cons] at hm
    have hne : k ≠ a := by omega
    simp only [Memory.byteAt, if_neg hne]
    exact ih hm.2.2.2 (by omega)

theorem Memory.list_wfFrom {lo k : Nat} {b : Byte} {m : Memory} (hlo : lo ≤ k) (hk : k < 4096)
    (hm : Memory.wfFrom (k + 1) m = true) : Memory.wfFrom lo (Memory.list k b m) = true := by
  unfold Memory.list
  split
  · exact Memory.wfFrom_mono (by omega) hm
  · next h => exact Memory.wfFrom_cons.2 ⟨hlo, hk, h, hm⟩

theorem Memory.store_wfFrom {a : Nat} {b : Byte} (ha : a < 4096) : ∀ {m : Memory} {lo : Nat}, lo ≤ a →
    Memory.wfFrom lo m = true → Memory.wfFrom lo (Memory.store m a b) = true := by
  intro m
  induction m with
  | nil => intro lo hlo _; exact Memory.list_wfFrom hlo ha rfl
  | cons c m ih =>
    obtain ⟨k, d⟩ := c
    intro lo hlo hm
    have hm' := Memory.wfFrom_cons.1 hm
    unfold Memory.store
    split
    · next h =>
      exact Memory.list_wfFrom hlo ha (Memory.wfFrom_cons.2 ⟨by omega, hm'.2⟩)
    · split
      · next h => exact Memory.list_wfFrom hlo ha (h ▸ hm'.2.2.2)
      · exact Memory.wfFrom_cons.2 ⟨hm'.1, hm'.2.1, hm'.2.2.1, ih (by omega) hm'.2.2.2⟩

/-- A store keeps the canonical form. -/
theorem Memory.store_wf {m : Memory} {a : Nat} (b : Byte) (ha : a < 4096) (hm : Memory.wf m = true) :
    Memory.wf (Memory.store m a b) = true := Memory.store_wfFrom ha (Nat.zero_le _) hm

/-- A block of stores keeps the canonical form. -/
theorem Memory.storeAll_wf (bs : List Byte) : ∀ {m : Memory} {a : Nat}, a + bs.length ≤ 4096 →
    Memory.wf m = true → Memory.wf (Memory.storeAll m a bs) = true := by
  induction bs with
  | nil => intro m a _ hm; exact hm
  | cons b bs ih =>
    intro m a ha hm
    simp only [List.length_cons] at ha
    exact ih (by omega) (Memory.store_wf b (by omega) hm)

/-! ### Read after write -/

theorem Memory.byteAt_list_same {k : Nat} {b : Byte} {m : Memory} (hm : Memory.wfFrom (k + 1) m = true) :
    Memory.byteAt (Memory.list k b m) k = b := by
  unfold Memory.list
  split
  · next h => rw [Memory.byteAt_below hm (by omega), h]
  · simp [Memory.byteAt]

theorem Memory.byteAt_list_other {k a : Nat} {b : Byte} {m : Memory} (h : a ≠ k) :
    Memory.byteAt (Memory.list k b m) a = Memory.byteAt m a := by
  unfold Memory.list
  split
  · rfl
  · simp [Memory.byteAt, Ne.symm h]

theorem Memory.byteAt_storeFrom_same {a : Nat} {b : Byte} : ∀ {m : Memory} {lo : Nat}, Memory.wfFrom lo m = true →
    Memory.byteAt (Memory.store m a b) a = b := by
  intro m
  induction m with
  | nil => intro lo _; exact Memory.byteAt_list_same rfl
  | cons c m ih =>
    obtain ⟨k, d⟩ := c
    intro lo hm
    have hm' := Memory.wfFrom_cons.1 hm
    unfold Memory.store
    split
    · next h => exact Memory.byteAt_list_same (Memory.wfFrom_cons.2 ⟨by omega, hm'.2⟩)
    · split
      · next h => exact Memory.byteAt_list_same (h ▸ hm'.2.2.2)
      · next h1 h2 =>
        have : k ≠ a := fun e => h2 e.symm
        simp only [Memory.byteAt, if_neg this]
        exact ih hm'.2.2.2

/-- A byte stored in a canonical memory reads back. -/
theorem Memory.byteAt_store_same {m : Memory} (a : Nat) (b : Byte) (hm : Memory.wf m = true) :
    Memory.byteAt (Memory.store m a b) a = b := Memory.byteAt_storeFrom_same hm

/-- A store leaves every other address alone. -/
theorem Memory.byteAt_store_other {a q : Nat} {b : Byte} (h : q ≠ a) : ∀ {m : Memory},
    Memory.byteAt (Memory.store m a b) q = Memory.byteAt m q := by
  intro m
  induction m with
  | nil => exact Memory.byteAt_list_other h
  | cons c m ih =>
    obtain ⟨k, d⟩ := c
    unfold Memory.store
    split
    · exact Memory.byteAt_list_other h
    · split
      · next h2 =>
        have : k ≠ q := by omega
        rw [Memory.byteAt_list_other h]
        simp [Memory.byteAt, this]
      · simp only [Memory.byteAt, ih]

/-- A block of stores leaves every address outside the block alone. -/
theorem Memory.byteAt_storeAll_other (bs : List Byte) : ∀ {m : Memory} {a q : Nat}, q < a ∨ a + bs.length ≤ q →
    Memory.byteAt (Memory.storeAll m a bs) q = Memory.byteAt m q := by
  induction bs with
  | nil => intros; rfl
  | cons b bs ih =>
    intro m a q h
    simp only [List.length_cons] at h
    rw [Memory.storeAll, ih (by omega), Memory.byteAt_store_other (by omega)]

/-- A block stored in a canonical memory reads back byte by byte. -/
theorem Memory.byteAt_storeAll (bs : List Byte) : ∀ {m : Memory} {a : Nat}, a + bs.length ≤ 4096 →
    Memory.wf m = true → ∀ j (h : j < bs.length), Memory.byteAt (Memory.storeAll m a bs) (a + j) = bs[j] := by
  induction bs with
  | nil => intro m a _ _ j h; simp at h
  | cons b bs ih =>
    intro m a ha hm j h
    simp only [List.length_cons] at ha h
    have hm2 := Memory.store_wf (a := a) b (by omega) hm
    cases j with
    | zero =>
      rw [Memory.storeAll, Memory.byteAt_storeAll_other bs (by omega)]
      simpa using Memory.byteAt_store_same a b hm
    | succ j =>
      have := ih (m := Memory.store m a b) (a := a + 1) (by omega) hm2 j (by omega)
      rw [Memory.storeAll, List.getElem_cons_succ, ← this]
      congr 1
      omega

/-! ### Blocks of accesses -/

theorem State.memRead_ok {s : State} {a : Nat} (h : a ≤ 0xFFF) : s.memRead a = .ok (s.mem.byteAt a) := by
  unfold State.memRead; rw [if_neg (by omega)]

theorem State.memRead_error {s : State} {a : Nat} (h : 0xFFF < a) :
    s.memRead a = .error (.outOfBoundsAccess a s.pc) := by
  unfold State.memRead; rw [if_pos h]

theorem State.memWrite_ok {s : State} {a : Nat} (b : Byte) (h1 : 0x050 ≤ a) (h2 : a ≤ 0xFFF) :
    s.memWrite a b = .ok { s with mem := s.mem.store a b } := by
  unfold State.memWrite; rw [if_neg (by omega), if_neg (by omega)]

theorem State.memWrite_outOfBounds {s : State} {a : Nat} (b : Byte) (h : 0xFFF < a) :
    s.memWrite a b = .error (.outOfBoundsAccess a s.pc) := by
  unfold State.memWrite; rw [if_pos h]

theorem State.memWrite_rom {s : State} {a : Nat} (b : Byte) (h : a ≤ 0x04F) :
    s.memWrite a b = .error (.romWrite a s.pc) := by
  unfold State.memWrite; rw [if_neg (by omega), if_pos h]

/-- A block inside memory reads as its bytes, ascending. -/
theorem State.readBlock_ok {s : State} : ∀ {n a : Nat}, n = 0 ∨ a + n ≤ 0x1000 →
    s.readBlock a n = .ok ((List.range n).map fun k => s.mem.byteAt (a + k)) := by
  intro n
  induction n with
  | zero => intros; rfl
  | succ n ih =>
    intro a h
    rw [State.readBlock, State.memRead_ok (by omega)]
    simp only [ih (a := a + 1) (by omega), List.range_succ_eq_map, List.map_cons, List.map_map, Nat.add_zero]
    congr 2
    apply List.map_congr_left
    intro k _
    simp only [Function.comp_apply, Nat.succ_eq_add_one]
    congr 1
    omega

/-- A block that leaves memory raises `OutOfBoundsAccess` at its lowest address outside (R226). -/
theorem State.readBlock_error {s : State} : ∀ {n a : Nat}, 0 < n → 0x1000 < a + n →
    s.readBlock a n = .error (.outOfBoundsAccess (max a 0x1000) s.pc) := by
  intro n
  induction n with
  | zero => intro a h; omega
  | succ n ih =>
    intro a _ h
    rw [State.readBlock]
    by_cases ha : a ≤ 0xFFF
    · rw [State.memRead_ok ha]
      have hn : 0 < n := by omega
      simp only [ih (a := a + 1) hn (by omega)]
      have h1 : max (a + 1) 0x1000 = 0x1000 := by omega
      have h2 : max a 0x1000 = 0x1000 := by omega
      rw [h1, h2]
    · rw [State.memRead_error (by omega)]
      have h2 : max a 0x1000 = a := by omega
      simp only [h2]

/-- A block of writes inside the writable part of memory. -/
theorem State.writeBlock_ok (bs : List Byte) : ∀ {s : State} {a : Nat}, 0x050 ≤ a → a + bs.length ≤ 0x1000 →
    s.writeBlock a bs = .ok { s with mem := s.mem.storeAll a bs } := by
  induction bs with
  | nil => intros; rfl
  | cons b bs ih =>
    intro s a h1 h2
    simp only [List.length_cons] at h2
    rw [State.writeBlock, State.memWrite_ok b h1 (by omega)]
    simp only [ih (s := { s with mem := s.mem.store a b }) (a := a + 1) (by omega) (by omega), Memory.storeAll]

/-- A block of writes that leaves memory raises `OutOfBoundsAccess` at its lowest address outside (R226). -/
theorem State.writeBlock_outOfBounds (bs : List Byte) : ∀ {s : State} {a : Nat}, bs ≠ [] → 0x050 ≤ a →
    0x1000 < a + bs.length → s.writeBlock a bs = .error (.outOfBoundsAccess (max a 0x1000) s.pc) := by
  induction bs with
  | nil => intro s a h; exact absurd rfl h
  | cons b bs ih =>
    intro s a _ h1 h2
    simp only [List.length_cons] at h2
    rw [State.writeBlock]
    by_cases ha : a ≤ 0xFFF
    · rw [State.memWrite_ok b h1 ha]
      have hn : bs ≠ [] := by rintro rfl; simp at h2; omega
      simp only [ih (s := { s with mem := s.mem.store a b }) (a := a + 1) hn (by omega) (by omega)]
      have e1 : max (a + 1) 0x1000 = 0x1000 := by omega
      have e2 : max a 0x1000 = 0x1000 := by omega
      rw [e1, e2]
    · rw [State.memWrite_outOfBounds b (by omega)]
      have e2 : max a 0x1000 = a := by omega
      simp only [e2]

/-- A block of writes that begins in the glyph region raises `RomWrite` at its first address (R65). -/
theorem State.writeBlock_rom {bs : List Byte} {s : State} {a : Nat} (h0 : bs ≠ []) (h : a ≤ 0x04F) :
    s.writeBlock a bs = .error (.romWrite a s.pc) := by
  cases bs with
  | nil => exact absurd rfl h0
  | cons b bs => rw [State.writeBlock, State.memWrite_rom b h]

/-! ### Fetch -/

/-- Fetch "succeeds exactly when `PC <= 0xFFE`" (R80). -/
theorem State.fetch_ok {s : State} (h : s.pc.toNat ≤ 0xFFE) :
    s.fetch = .ok (bigEndian (s.mem.byteAt s.pc.toNat) (s.mem.byteAt (s.pc.toNat + 1))) := by
  unfold State.fetch
  rw [State.memRead_ok (by omega), State.memRead_ok (by omega)]

/-- Above 0xFFE fetch raises `OutOfBoundsAccess` at its lowest address outside (R80, R226). -/
theorem State.fetch_error {s : State} (h : 0xFFE < s.pc.toNat) :
    s.fetch = .error (.outOfBoundsAccess (max s.pc.toNat 0x1000) s.pc) := by
  unfold State.fetch
  by_cases h1 : s.pc.toNat ≤ 0xFFF
  · have h2 : s.pc.toNat = 0xFFF := by omega
    rw [State.memRead_ok h1, State.memRead_error (by omega)]
    simp [h2]
  · rw [State.memRead_error (by omega)]
    have e : max s.pc.toNat 0x1000 = s.pc.toNat := by omega
    simp only [e]

end Sys2Proof.Machine
end

