-- ==== Sys2Proof/Laws/Display.lean ====
section
/-! SUPPORT. The display surface and the sprite blitter in closed form (spec/43_display.md R180 to R184): every pixel
after a draw is the pixel before, XORed with the sprite bit that covers it, and a collision is a set bit on a lit
pixel. -/

namespace Sys2Proof.Machine

/-- Nothing outside the grid is lit. -/
theorem Display.pixel_outside {d : Display} {px py : Nat} (h : ¬ (px < 64 ∧ py < 32)) : Display.pixel d px py = false := by
  unfold Display.pixel; rw [dif_neg h]

/-- Turning a pixel over changes that pixel, if it is in the grid, and no other. -/
theorem Display.pixel_flip (d : Display) (px py qx qy : Nat) :
    Display.pixel (Display.flip d px py) qx qy =
      (Display.pixel d qx qy ^^ decide (px < 64 ∧ py < 32 ∧ qx = px ∧ qy = py)) := by
  unfold Display.flip
  by_cases h : px < 64 ∧ py < 32
  · rw [dif_pos h]
    unfold Display.pixel
    by_cases hq : qx < 64 ∧ qy < 32
    · rw [dif_pos hq, dif_pos hq, Vector.getElem_set]
      by_cases hy : py = qy
      · subst hy
        rw [if_pos rfl, Vector.getElem_set]
        by_cases hx : px = qx
        · subst hx; simp [h.1, h.2]
        · simp [hx, Ne.symm hx]
      · simp [hy, Ne.symm hy]
    · rw [dif_neg hq, dif_neg hq]
      have : ¬ (px < 64 ∧ py < 32 ∧ qx = px ∧ qy = py) := by rintro ⟨h1, h2, rfl, rfl⟩; exact hq ⟨h1, h2⟩
      simp [this]
  · rw [dif_neg h]
    have : ¬ (px < 64 ∧ py < 32 ∧ qx = px ∧ qy = py) := by rintro ⟨h1, h2, _⟩; exact h ⟨h1, h2⟩
    simp [this]

/-- Every pixel of the blank display is off (R180). -/
@[simp] theorem Display.pixel_blank (px py : Nat) : Display.pixel Display.blank px py = false := by
  unfold Display.pixel Display.blank
  split <;> simp

/-- Two displays whose pixels agree are equal. -/
theorem Display.ext_pixel {d e : Display}
    (h : ∀ px py, px < 64 → py < 32 → Display.pixel d px py = Display.pixel e px py) : d = e := by
  apply Vector.ext
  intro py hy
  apply Vector.ext
  intro px hx
  have := h px py hx hy
  unfold Display.pixel at this
  rwa [dif_pos ⟨hx, hy⟩, dif_pos ⟨hx, hy⟩] at this

/-! ### One sprite row -/

/-- A sprite row drawn from column `ox` on sets column `qx`. -/
def rowSets (ox : Nat) (row : Byte) (qx : Nat) : Bool := decide (ox ≤ qx ∧ qx < ox + 8) && spriteBit row (qx - ox)

/-- Some column of the list `cs` is `qx` and has its bit set. -/
def columnsSet (ox : Nat) (row : Byte) (cs : List Nat) (qx : Nat) : Bool :=
  cs.any fun c => decide (qx = ox + c) && spriteBit row c

theorem columnsSet_all (ox : Nat) (row : Byte) (qx : Nat) :
    columnsSet ox row [0, 1, 2, 3, 4, 5, 6, 7] qx = rowSets ox row qx := by
  unfold columnsSet rowSets
  by_cases h : ox ≤ qx ∧ qx < ox + 8
  · obtain ⟨c, rfl⟩ : ∃ c, qx = ox + c := ⟨qx - ox, by omega⟩
    have hc : c < 8 := by omega
    have e : ox + c - ox = c := by omega
    simp only [e, h, and_self, decide_true, Bool.true_and, List.any_cons, List.any_nil, Bool.or_false,
      Nat.add_left_cancel_iff]
    interval_cases c <;> simp
  · simp only [h, decide_false, Bool.false_and, List.any_eq_false, Bool.and_eq_true, decide_eq_true_eq, not_and]
    intro c hc e
    exact absurd ⟨by omega, by simp at hc; omega⟩ h

/-- The columns of a row, drawn one after another, XOR into the pixels they cover. -/
theorem Blit.columns_pixel (ox oy i : Nat) (row : Byte) (cs : List Nat) : ∀ (p : Blit), cs.Nodup → ∀ qx qy,
    Display.pixel (cs.foldl (Blit.column ox oy i row) p).disp qx qy =
      (Display.pixel p.disp qx qy ^^ (decide (qx < 64 ∧ qy < 32 ∧ qy = oy + i) && columnsSet ox row cs qx)) := by
  induction cs with
  | nil => intro p _ qx qy; simp [columnsSet]
  | cons c cs ih =>
    intro p hnd qx qy
    obtain ⟨hc, hnd⟩ := List.nodup_cons.1 hnd
    rw [List.foldl_cons, ih _ hnd]
    have hfirst : Display.pixel (Blit.column ox oy i row p c).disp qx qy =
        (Display.pixel p.disp qx qy ^^
          (decide (qx < 64 ∧ qy < 32 ∧ qy = oy + i) && (decide (qx = ox + c) && spriteBit row c))) := by
      unfold Blit.column
      split
      · next h =>
        rw [Display.pixel_flip, h.1]
        congr 1
        rw [Bool.and_true, ← Bool.decide_and]
        congr 1
        apply propext
        constructor
        · rintro ⟨h1, h2, rfl, rfl⟩; exact ⟨⟨h1, h2, rfl⟩, rfl⟩
        · rintro ⟨⟨h1, h2, rfl⟩, rfl⟩; exact ⟨h1, h2, rfl, rfl⟩
      · next h =>
        have : (decide (qx < 64 ∧ qy < 32 ∧ qy = oy + i) && (decide (qx = ox + c) && spriteBit row c)) = false := by
          rw [Bool.eq_false_iff]
          simp only [ne_eq, Bool.and_eq_true, decide_eq_true_eq, not_and]
          rintro ⟨h1, h2, rfl⟩ rfl hb
          exact h ⟨hb, h1, h2⟩
        rw [this, Bool.xor_false]
    rw [hfirst, Bool.xor_assoc]
    congr 1
    have hstep : columnsSet ox row (c :: cs) qx =
        ((decide (qx = ox + c) && spriteBit row c) || columnsSet ox row cs qx) := rfl
    rw [hstep]
    by_cases hx : qx = ox + c
    · have : columnsSet ox row cs qx = false := by
        simp only [columnsSet, List.any_eq_false, Bool.and_eq_true, decide_eq_true_eq, not_and]
        intro d hd e
        have : d = c := by omega
        exact absurd (this ▸ hd) hc
      simp [this]
    · simp [hx]

/-- The columns of a row collide exactly where a set bit meets a lit pixel of the grid. -/
theorem Blit.columns_collided (ox oy i : Nat) (row : Byte) (cs : List Nat) : ∀ (p : Blit), cs.Nodup →
    ((cs.foldl (Blit.column ox oy i row) p).collided = true ↔
      p.collided = true ∨ ∃ c ∈ cs, ox + c < 64 ∧ oy + i < 32 ∧ spriteBit row c = true ∧
        Display.pixel p.disp (ox + c) (oy + i) = true) := by
  induction cs with
  | nil => intro p _; simp
  | cons c cs ih =>
    intro p hnd
    obtain ⟨hc, hnd⟩ := List.nodup_cons.1 hnd
    rw [List.foldl_cons, ih _ hnd]
    have hkeep : ∀ d ∈ cs, Display.pixel (Blit.column ox oy i row p c).disp (ox + d) (oy + i) =
        Display.pixel p.disp (ox + d) (oy + i) := by
      intro d hd
      unfold Blit.column
      split
      · rw [Display.pixel_flip]
        have hne : ¬ (ox + c < 64 ∧ oy + i < 32 ∧ ox + d = ox + c ∧ oy + i = oy + i) := by
          rintro ⟨_, _, e, _⟩
          have : d = c := by omega
          exact hc (this ▸ hd)
        rw [decide_eq_false hne, Bool.xor_false]
      · rfl
    have hflag : (Blit.column ox oy i row p c).collided = true ↔ p.collided = true ∨
        (ox + c < 64 ∧ oy + i < 32 ∧ spriteBit row c = true ∧ Display.pixel p.disp (ox + c) (oy + i) = true) := by
      unfold Blit.column
      split
      · next h => simp [h.1, h.2.1, h.2.2]
      · next h =>
        constructor
        · exact .inl
        · rintro (h1 | ⟨h1, h2, h3, _⟩)
          · exact h1
          · exact absurd ⟨h3, h1, h2⟩ h
    rw [hflag]
    constructor
    · rintro ((h | h) | ⟨d, hd, h1, h2, h3, h4⟩)
      · exact .inl h
      · exact .inr ⟨c, List.mem_cons_self, h⟩
      · exact .inr ⟨d, List.mem_cons_of_mem _ hd, h1, h2, h3, hkeep d hd ▸ h4⟩
    · rintro (h | ⟨d, hd, h1, h2, h3, h4⟩)
      · exact .inl (.inl h)
      · rcases List.mem_cons.1 hd with rfl | hd
        · exact .inl (.inr ⟨h1, h2, h3, h4⟩)
        · exact .inr ⟨d, hd, h1, h2, h3, (hkeep d hd).symm ▸ h4⟩

/-- The pixels after one sprite row. -/
theorem Blit.row_pixel (ox oy i : Nat) (row : Byte) (p : Blit) (qx qy : Nat) :
    Display.pixel (Blit.row ox oy i row p).disp qx qy =
      (Display.pixel p.disp qx qy ^^ (decide (qx < 64 ∧ qy < 32 ∧ qy = oy + i) && rowSets ox row qx)) := by
  unfold Blit.row
  rw [Blit.columns_pixel ox oy i row _ p (by decide), columnsSet_all]

/-- The collision of one sprite row. -/
theorem Blit.row_collided (ox oy i : Nat) (row : Byte) (p : Blit) :
    (Blit.row ox oy i row p).collided = true ↔
      p.collided = true ∨ ∃ qx, qx < 64 ∧ oy + i < 32 ∧ rowSets ox row qx = true ∧
        Display.pixel p.disp qx (oy + i) = true := by
  unfold Blit.row
  rw [Blit.columns_collided ox oy i row _ p (by decide)]
  apply or_congr_right
  constructor
  · rintro ⟨c, hc, h1, h2, h3, h4⟩
    refine ⟨ox + c, h1, h2, ?_, h4⟩
    have hc8 : c < 8 := by simp at hc; omega
    have e : ox + c - ox = c := by omega
    simp [rowSets, e, h3, hc8]
  · rintro ⟨qx, h1, h2, h3, h4⟩
    simp only [rowSets, Bool.and_eq_true, decide_eq_true_eq] at h3
    have e : ox + (qx - ox) = qx := by omega
    refine ⟨qx - ox, ?_, by omega, h2, h3.2, by rwa [e]⟩
    have : qx - ox < 8 := by omega
    generalize qx - ox = c at this
    interval_cases c <;> simp

/-! ### A whole sprite -/

@[simp] theorem spriteBit_zero (c : Nat) : spriteBit 0#8 c = false := by simp [spriteBit]

@[simp] theorem rowSets_zero (ox qx : Nat) : rowSets ox 0#8 qx = false := by simp [rowSets]

/-- The pixels after the sprite rows from row `i` on. -/
theorem Blit.rows_pixel (ox oy : Nat) (rs : List Byte) : ∀ (i : Nat) (p : Blit) (qx qy : Nat),
    Display.pixel (Blit.rows ox oy i rs p).disp qx qy =
      (Display.pixel p.disp qx qy ^^
        (decide (qx < 64 ∧ qy < 32 ∧ oy + i ≤ qy) && rowSets ox (rs.getD (qy - (oy + i)) 0) qx)) := by
  induction rs with
  | nil => intro i p qx qy; simp [Blit.rows]
  | cons r rs ih =>
    intro i p qx qy
    rw [Blit.rows, ih, Blit.row_pixel, Bool.xor_assoc]
    congr 1
    by_cases h1 : qy = oy + i
    · have e1 : ¬ (oy + (i + 1) ≤ qy) := by omega
      simp [h1]
    · by_cases h2 : oy + i ≤ qy
      · have e1 : oy + (i + 1) ≤ qy := by omega
        have e2 : qy - (oy + i) = (qy - (oy + (i + 1))) + 1 := by omega
        simp only [h1, and_false, decide_false, Bool.false_and, Bool.false_xor, e2, h2, e1,
          List.getD_cons_succ]
      · have e1 : ¬ (oy + (i + 1) ≤ qy) := by omega
        simp [h1, h2, e1]

/-- The collision of the sprite rows from row `i` on. -/
theorem Blit.rows_collided (ox oy : Nat) (rs : List Byte) : ∀ (i : Nat) (p : Blit),
    ((Blit.rows ox oy i rs p).collided = true ↔
      p.collided = true ∨ ∃ qx qy, qx < 64 ∧ qy < 32 ∧ oy + i ≤ qy ∧
        rowSets ox (rs.getD (qy - (oy + i)) 0) qx = true ∧ Display.pixel p.disp qx qy = true) := by
  induction rs with
  | nil => intro i p; simp [Blit.rows]
  | cons r rs ih =>
    intro i p
    rw [Blit.rows, ih, Blit.row_collided, or_assoc]
    apply or_congr_right
    have hkeep : ∀ qx qy, oy + (i + 1) ≤ qy →
        Display.pixel (Blit.row ox oy i r p).disp qx qy = Display.pixel p.disp qx qy := by
      intro qx qy h
      have : ¬ (qx < 64 ∧ qy < 32 ∧ qy = oy + i) := by omega
      rw [Blit.row_pixel]
      simp [this]
    constructor
    · rintro (⟨qx, h1, h2, h3, h4⟩ | ⟨qx, qy, h1, h2, h3, h4, h5⟩)
      · exact ⟨qx, oy + i, h1, h2, Nat.le_refl _, by simpa using h3, h4⟩
      · refine ⟨qx, qy, h1, h2, by omega, ?_, hkeep qx qy h3 ▸ h5⟩
        have e2 : qy - (oy + i) = (qy - (oy + (i + 1))) + 1 := by omega
        rw [e2, List.getD_cons_succ]
        exact h4
    · rintro ⟨qx, qy, h1, h2, h3, h4, h5⟩
      by_cases hq : qy = oy + i
      · subst hq
        exact .inl ⟨qx, h1, h2, by simpa using h4, h5⟩
      · have e1 : oy + (i + 1) ≤ qy := by omega
        refine .inr ⟨qx, qy, h1, h2, e1, ?_, (hkeep qx qy e1).symm ▸ h5⟩
        have e2 : qy - (oy + i) = (qy - (oy + (i + 1))) + 1 := by omega
        rwa [e2, List.getD_cons_succ] at h4

end Sys2Proof.Machine
end

