-- ==== Sys2Proof/Laws/PerInstr.lean ====
section
/-! SUPPORT. The statements made of every instruction, one lemma per constructor. -/

namespace Sys2Proof.Laws.FixedBits

open Sys2Proof

/-- A run of bits of an instruction word that spec/opcode_table.json fixes: its lowest bit, its width, its value. -/
structure Fixed where
  lo : Nat
  width : Nat
  value : Nat
  deriving DecidableEq, Repr

/-- The "fixed" column of spec/opcode_table.json. -/
def table : Instr → List Fixed
  | .cls => [⟨0, 16, 224⟩]
  | .ret => [⟨0, 16, 238⟩]
  | .jp _ => [⟨12, 4, 1⟩]
  | .call _ => [⟨12, 4, 2⟩]
  | .seK _ _ => [⟨12, 4, 3⟩]
  | .sneK _ _ => [⟨12, 4, 4⟩]
  | .seR _ _ => [⟨0, 4, 0⟩, ⟨12, 4, 5⟩]
  | .ldK _ _ => [⟨12, 4, 6⟩]
  | .addK _ _ => [⟨12, 4, 7⟩]
  | .ldR _ _ => [⟨0, 4, 0⟩, ⟨12, 4, 8⟩]
  | .orR _ _ => [⟨0, 4, 1⟩, ⟨12, 4, 8⟩]
  | .andR _ _ => [⟨0, 4, 2⟩, ⟨12, 4, 8⟩]
  | .xorR _ _ => [⟨0, 4, 3⟩, ⟨12, 4, 8⟩]
  | .addR _ _ => [⟨0, 4, 4⟩, ⟨12, 4, 8⟩]
  | .sub _ _ => [⟨0, 4, 5⟩, ⟨12, 4, 8⟩]
  | .shr _ _ => [⟨0, 4, 6⟩, ⟨12, 4, 8⟩]
  | .subn _ _ => [⟨0, 4, 7⟩, ⟨12, 4, 8⟩]
  | .shl _ _ => [⟨0, 4, 14⟩, ⟨12, 4, 8⟩]
  | .sneR _ _ => [⟨0, 4, 0⟩, ⟨12, 4, 9⟩]
  | .ldI _ => [⟨12, 4, 10⟩]
  | .jpV0 _ => [⟨12, 4, 11⟩]
  | .rnd _ _ => [⟨12, 4, 12⟩]
  | .drw _ _ _ => [⟨12, 4, 13⟩]
  | .skp _ => [⟨0, 8, 158⟩, ⟨12, 4, 14⟩]
  | .sknp _ => [⟨0, 8, 161⟩, ⟨12, 4, 14⟩]
  | .ldVDt _ => [⟨0, 8, 7⟩, ⟨12, 4, 15⟩]
  | .ldVK _ => [⟨0, 8, 10⟩, ⟨12, 4, 15⟩]
  | .ldDtV _ => [⟨0, 8, 21⟩, ⟨12, 4, 15⟩]
  | .ldStV _ => [⟨0, 8, 24⟩, ⟨12, 4, 15⟩]
  | .addI _ => [⟨0, 8, 30⟩, ⟨12, 4, 15⟩]
  | .ldF _ => [⟨0, 8, 41⟩, ⟨12, 4, 15⟩]
  | .ldB _ => [⟨0, 8, 51⟩, ⟨12, 4, 15⟩]
  | .stBlock _ => [⟨0, 8, 85⟩, ⟨12, 4, 15⟩]
  | .ldBlock _ => [⟨0, 8, 101⟩, ⟨12, 4, 15⟩]

/-- The word of an instruction has the bits its row of the opcode table fixes. -/
def Statement (i : Instr) : Prop := ∀ f ∈ table i, (encode i).toNat / 2 ^ f.lo % 2 ^ f.width = f.value

theorem group_ofNNN {w : Word} {g : BitVec 4} {nnn : Addr12} (h : w = wordNNN g nnn) :
    w.toNat / 2 ^ 12 % 2 ^ 4 = g.toNat := by
  have := g.isLt; have := nnn.isLt
  rw [h, wordNNN_toNat]; omega

theorem group_ofXKK {w : Word} {g : BitVec 4} {x : Reg} {kk : Byte} (h : w = wordXKK g x kk) :
    w.toNat / 2 ^ 12 % 2 ^ 4 = g.toNat ∧ w.toNat / 2 ^ 0 % 2 ^ 8 = kk.toNat := by
  have := g.isLt; have := x.isLt; have := kk.isLt
  rw [h, wordXKK_toNat]; omega

theorem group_ofXYN {w : Word} {g : BitVec 4} {x y : Reg} {n : Nat} (h : w = wordXYN g x y n) :
    w.toNat / 2 ^ 12 % 2 ^ 4 = g.toNat ∧ w.toNat / 2 ^ 0 % 2 ^ 4 = n % 16 := by
  have := g.isLt; have := x.isLt; have := y.isLt
  rw [h, wordXYN_toNat]; omega

theorem statement_one {i : Instr} {f : Fixed} (ht : table i = [f])
    (h : (encode i).toNat / 2 ^ f.lo % 2 ^ f.width = f.value) : Statement i := by
  intro g hg; rw [ht, List.mem_singleton] at hg; exact hg ▸ h

theorem statement_two {i : Instr} {f g : Fixed} (ht : table i = [f, g])
    (hf : (encode i).toNat / 2 ^ f.lo % 2 ^ f.width = f.value)
    (hg : (encode i).toNat / 2 ^ g.lo % 2 ^ g.width = g.value) : Statement i := by
  intro k hk; rw [ht] at hk
  rcases List.mem_cons.1 hk with rfl | hk
  · exact hf
  · exact List.mem_singleton.1 hk ▸ hg

theorem cls : Statement .cls := statement_one rfl rfl
theorem ret : Statement .ret := statement_one rfl rfl
theorem jp (nnn : Addr12) : Statement (.jp nnn) := statement_one rfl (group_ofNNN rfl)
theorem call (nnn : Addr12) : Statement (.call nnn) := statement_one rfl (group_ofNNN rfl)
theorem seK (x : Reg) (kk : Byte) : Statement (.seK x kk) := statement_one rfl (group_ofXKK rfl).1
theorem sneK (x : Reg) (kk : Byte) : Statement (.sneK x kk) := statement_one rfl (group_ofXKK rfl).1
theorem seR (x y : Reg) : Statement (.seR x y) := statement_two rfl (group_ofXYN rfl).2 (group_ofXYN rfl).1
theorem ldK (x : Reg) (kk : Byte) : Statement (.ldK x kk) := statement_one rfl (group_ofXKK rfl).1
theorem addK (x : Reg) (kk : Byte) : Statement (.addK x kk) := statement_one rfl (group_ofXKK rfl).1
theorem ldR (x y : Reg) : Statement (.ldR x y) := statement_two rfl (group_ofXYN rfl).2 (group_ofXYN rfl).1
theorem orR (x y : Reg) : Statement (.orR x y) := statement_two rfl (group_ofXYN rfl).2 (group_ofXYN rfl).1
theorem andR (x y : Reg) : Statement (.andR x y) := statement_two rfl (group_ofXYN rfl).2 (group_ofXYN rfl).1
theorem xorR (x y : Reg) : Statement (.xorR x y) := statement_two rfl (group_ofXYN rfl).2 (group_ofXYN rfl).1
theorem addR (x y : Reg) : Statement (.addR x y) := statement_two rfl (group_ofXYN rfl).2 (group_ofXYN rfl).1
theorem sub (x y : Reg) : Statement (.sub x y) := statement_two rfl (group_ofXYN rfl).2 (group_ofXYN rfl).1
theorem shr (x y : Reg) : Statement (.shr x y) := statement_two rfl (group_ofXYN rfl).2 (group_ofXYN rfl).1
theorem subn (x y : Reg) : Statement (.subn x y) := statement_two rfl (group_ofXYN rfl).2 (group_ofXYN rfl).1
theorem shl (x y : Reg) : Statement (.shl x y) := statement_two rfl (group_ofXYN rfl).2 (group_ofXYN rfl).1
theorem sneR (x y : Reg) : Statement (.sneR x y) := statement_two rfl (group_ofXYN rfl).2 (group_ofXYN rfl).1
theorem ldI (nnn : Addr12) : Statement (.ldI nnn) := statement_one rfl (group_ofNNN rfl)
theorem jpV0 (nnn : Addr12) : Statement (.jpV0 nnn) := statement_one rfl (group_ofNNN rfl)
theorem rnd (x : Reg) (kk : Byte) : Statement (.rnd x kk) := statement_one rfl (group_ofXKK rfl).1
theorem drw (x y : Reg) (n : Nat) : Statement (.drw x y n) := statement_one rfl (group_ofXYN rfl).1
theorem skp (x : Reg) : Statement (.skp x) := statement_two rfl (group_ofXKK rfl).2 (group_ofXKK rfl).1
theorem sknp (x : Reg) : Statement (.sknp x) := statement_two rfl (group_ofXKK rfl).2 (group_ofXKK rfl).1
theorem ldVDt (x : Reg) : Statement (.ldVDt x) := statement_two rfl (group_ofXKK rfl).2 (group_ofXKK rfl).1
theorem ldVK (x : Reg) : Statement (.ldVK x) := statement_two rfl (group_ofXKK rfl).2 (group_ofXKK rfl).1
theorem ldDtV (x : Reg) : Statement (.ldDtV x) := statement_two rfl (group_ofXKK rfl).2 (group_ofXKK rfl).1
theorem ldStV (x : Reg) : Statement (.ldStV x) := statement_two rfl (group_ofXKK rfl).2 (group_ofXKK rfl).1
theorem addI (x : Reg) : Statement (.addI x) := statement_two rfl (group_ofXKK rfl).2 (group_ofXKK rfl).1
theorem ldF (x : Reg) : Statement (.ldF x) := statement_two rfl (group_ofXKK rfl).2 (group_ofXKK rfl).1
theorem ldB (x : Reg) : Statement (.ldB x) := statement_two rfl (group_ofXKK rfl).2 (group_ofXKK rfl).1
theorem stBlock (x : Reg) : Statement (.stBlock x) := statement_two rfl (group_ofXKK rfl).2 (group_ofXKK rfl).1
theorem ldBlock (x : Reg) : Statement (.ldBlock x) := statement_two rfl (group_ofXKK rfl).2 (group_ofXKK rfl).1

end Sys2Proof.Laws.FixedBits
end

