-- ==== Sys2Proof/Laws/Step.lean ====
section
/-! SUPPORT. What a step can do, said once (spec/30_encoding.md R89; spec/60_exceptions.md R225). -/

namespace Sys2Proof.Machine

theorem step_recorded {s : State} {e : Fault} (h : s.fault = some e) : step s = .fault e := by
  simp only [step, h]

theorem step_waiting {s : State} {r : Reg} (h : s.fault = none) (hw : s.status = .waitingForKey r) :
    step s = .next s := by
  simp only [step, h, hw]

/-- A step of a running machine, once its fetch is known. -/
theorem step_running {s : State} (h : s.fault = none) (hr : s.status = .running) :
    step s =
      match s.fetch with
      | .error e => s.raise e
      | .ok w =>
        match decode w with
        | .error _ => s.raise (.unknownInstruction w s.pc)
        | .ok i => exec i s := by
  unfold step; rw [h, hr] <;> rfl

/-- Decoding rejects a word only as itself. -/
theorem decode_error {w : Word} {e : DecodeError} (h : decode w = .error e) : e = .unknown w := by
  have h0 : ∀ {e}, decodeGroup0 w = .error e → e = .unknown w := by
    intro e h; unfold decodeGroup0 at h
    split at h
    · cases h
    · split at h <;> cases h
      rfl
  have h8 : ∀ {e}, decodeGroup8 w = .error e → e = .unknown w := by
    intro e h; unfold decodeGroup8 at h
    split at h <;> cases h
    rfl
  have hE : ∀ {e}, decodeGroupE w = .error e → e = .unknown w := by
    intro e h; unfold decodeGroupE at h
    split at h <;> cases h
    rfl
  have hF : ∀ {e}, decodeGroupF w = .error e → e = .unknown w := by
    intro e h; unfold decodeGroupF at h
    split at h <;> cases h
    rfl
  unfold decode at h
  split at h
  all_goals first
    | exact h0 h
    | exact h8 h
    | exact hE h
    | exact hF h
    | (split at h <;> cases h <;> rfl)
    | cases h

/-- Everything a step that answers a next state can have done. -/
theorem step_cases {s t : State} (h : step s = .next t) :
    s.fault = none ∧
      ((∃ r, s.status = .waitingForKey r ∧ t = s) ∨
        (s.status = .running ∧
          ((0xFFE < s.pc.toNat ∧ t = s.recordFault (.outOfBoundsAccess (max s.pc.toNat 0x1000) s.pc)) ∨
            (∃ w, s.fetch = .ok w ∧ decode w = .error (.unknown w) ∧
              t = s.recordFault (.unknownInstruction w s.pc)) ∨
            ∃ w i, s.pc.toNat ≤ 0xFFE ∧ s.fetch = .ok w ∧ decode w = .ok i ∧ exec i s = .next t))) := by
  cases hf : s.fault with
  | some e => rw [step_recorded hf] at h; cases h
  | none =>
    refine ⟨rfl, ?_⟩
    cases hs : s.status with
    | waitingForKey r =>
      rw [step_waiting hf hs] at h
      cases h
      exact .inl ⟨r, rfl, rfl⟩
    | running =>
      rw [step_running hf hs] at h
      refine .inr ⟨rfl, ?_⟩
      by_cases hp : s.pc.toNat ≤ 0xFFE
      · right
        rw [State.fetch_ok hp] at h
        cases hd : decode (bigEndian (s.mem.byteAt s.pc.toNat) (s.mem.byteAt (s.pc.toNat + 1))) with
        | error e =>
          simp only [hd, State.raise_eq] at h
          cases h
          exact .inl ⟨_, State.fetch_ok hp, decode_error hd ▸ hd, rfl⟩
        | ok i =>
          simp only [hd] at h
          exact .inr ⟨_, i, hp, State.fetch_ok hp, hd, h⟩
      · rw [State.fetch_error (by omega)] at h
        simp only [State.raise_eq] at h
        cases h
        exact .inl ⟨by omega, rfl⟩

end Sys2Proof.Machine
end

