-- ==== Sys2Proof/Tests/Slice0.lean ====
section
/-! SUPPORT. The model's own tests: words written out from the encoding tables of spec/30_encoding.md, single steps
whose results stand in spec/95_test_vectors.md (or follow by hand from the rule named), and, for each statement with
hypotheses, a state and operands that meet them. -/

namespace Sys2Proof.Tests

open Sys2Proof Sys2Proof.Machine

/-! ### Well-formedness -/

/-- R83: `n` is a 4-bit count, so a height of 16 has no encoding; every other operand is bounded by its type. -/
theorem test_wf_refuses_tall_sprite : Instr.wf (.drw 0 0 16) = false ∧ Instr.wf (.drw 0 0 15) = true := by decide

/-- What the check guards against: a height of 16 would be encoded as a height of 0. -/
theorem test_tall_sprite_has_no_word : decode (encode (.drw 0 0 16)) = .ok (.drw 0 0 0) := by decide

/-! ### Decoding: every constructor, by a word written out from R82 and R85 -/

/-- Control flow: group, then `nnn`, or `x` and `kk`, or `x`, `y` and 0. -/
theorem test_decode_control :
    decode 0b0000000011101110#16 = .ok .ret ∧ decode 0b0001101010111100#16 = .ok (.jp 0xABC) ∧
    decode 0b0010001100000001#16 = .ok (.call 0x301) ∧ decode 0b0011001000000101#16 = .ok (.seK 2 0x05) ∧
    decode 0b0100111110000001#16 = .ok (.sneK 15 0x81) ∧ decode 0b0101000100100000#16 = .ok (.seR 1 2) ∧
    decode 0b1001111000010000#16 = .ok (.sneR 14 1) ∧ decode 0b1011111111111110#16 = .ok (.jpV0 0xFFE) := by decide

/-- Loads and the ALU. -/
theorem test_decode_alu :
    decode 0b0110101001000010#16 = .ok (.ldK 10 0x42) ∧ decode 0b0111001100000101#16 = .ok (.addK 3 0x05) ∧
    decode 0b1000000100100000#16 = .ok (.ldR 1 2) ∧ decode 0b1000000100100001#16 = .ok (.orR 1 2) ∧
    decode 0b1000000100100010#16 = .ok (.andR 1 2) ∧ decode 0b1000000100100011#16 = .ok (.xorR 1 2) ∧
    decode 0b1000000100100100#16 = .ok (.addR 1 2) ∧ decode 0b1000000100100101#16 = .ok (.sub 1 2) ∧
    decode 0b1000000010100110#16 = .ok (.shr 0 10) ∧ decode 0b1000000100100111#16 = .ok (.subn 1 2) ∧
    decode 0b1000010100001110#16 = .ok (.shl 5 0) ∧ decode 0b1100001100001111#16 = .ok (.rnd 3 0x0F) := by decide

/-- The address register and memory. -/
theorem test_decode_memory :
    decode 0b1010001100000000#16 = .ok (.ldI 0x300) ∧ decode 0b1111001000011110#16 = .ok (.addI 2) ∧
    decode 0b1111010000101001#16 = .ok (.ldF 4) ∧ decode 0b1111010100110011#16 = .ok (.ldB 5) ∧
    decode 0b1111001001010101#16 = .ok (.stBlock 2) ∧ decode 0b1111000101100101#16 = .ok (.ldBlock 1) := by decide

/-- The display, the keypad and the timers. -/
theorem test_decode_devices :
    decode 0b0000000011100000#16 = .ok .cls ∧ decode 0b1101000000010101#16 = .ok (.drw 0 1 5) ∧
    decode 0b1101111100001111#16 = .ok (.drw 15 0 15) ∧ decode 0b1110000110011110#16 = .ok (.skp 1) ∧
    decode 0b1110000110100001#16 = .ok (.sknp 1) ∧ decode 0b1111001100000111#16 = .ok (.ldVDt 3) ∧
    decode 0b1111010100001010#16 = .ok (.ldVK 5) ∧ decode 0b1111000000010101#16 = .ok (.ldDtV 0) ∧
    decode 0b1111000000011000#16 = .ok (.ldStV 0) := by decide

/-- The unknown words of the decode table of 95_test_vectors.md, one or more of each class of R95. -/
theorem test_decode_unknown :
    decode 0x0000 = .error (.unknown 0x0000) ∧ decode 0x00E1 = .error (.unknown 0x00E1) ∧
    decode 0x0123 = .error (.unknown 0x0123) ∧ decode 0x5121 = .error (.unknown 0x5121) ∧
    decode 0x8008 = .error (.unknown 0x8008) ∧ decode 0x800F = .error (.unknown 0x800F) ∧
    decode 0x912F = .error (.unknown 0x912F) ∧ decode 0xE09F = .error (.unknown 0xE09F) ∧
    decode 0xF000 = .error (.unknown 0xF000) ∧ decode 0xFFFF = .error (.unknown 0xFFFF) := by decide

/-- The first byte is the high one (R70, R80), and what follows the word is left over. -/
theorem test_decode_bytes_is_big_endian :
    decodeBytes [0x12, 0x34, 0x56] = .ok (.jp 0x234, [0x56]) ∧ encodeBytes (.jp 0x234) = [0x12, 0x34] ∧
    decodeBytes [0x12] = .error .truncated := by decide

/-- The host's numbering of a row's bits (spec/opcode_table.json): bit 0 is the word's own bit 0. -/
theorem test_decode_table_word :
    decodeTableWord 16 0x2300 = some (.call 0x300) ∧ decodeTableWord 16 0x5121 = none := by decide

/-! ### Helpers -/

/-- The state after reset with some registers set. -/
def withRegs (regs : List (Reg × Byte)) : State := regs.foldl (fun s p => s.setReg p.1 p.2) State.reset

/-- The same with `I` set. -/
def withI (i : Word) (regs : List (Reg × Byte)) : State := (withRegs regs).setI i

/-- `s` with bytes placed in memory from `a` on. -/
def withBytes (s : State) (a : Nat) (bs : List Byte) : State := { s with mem := s.mem.storeAll a bs }

/-- The state after a step of `s` with the word `w` at its `PC`. -/
def after (w : Nat) (s : State) : State :=
  match step (s.withFetchWord 16 w) with
  | .next t => t
  | .fault _ => s
  | .refused _ => s

/-- The lit pixels among rows 0 to 7 and columns 0 to 15, as `(column, row)`, row by row. -/
def litCorner (s : State) : List (Nat × Nat) :=
  ((List.range 8).flatMap fun y => (List.range 16).map fun x => (x, y)).filter fun p => Display.pixel s.disp p.1 p.2

/-! ### Control flow (95_test_vectors.md, W4 to W6 and Part 2) -/

theorem test_ret :
    let s := { State.reset with depth := 1, stack := State.reset.stack.set 0 0x202, pc := 0x300 }
    (after 0x00EE s).pc = 0x202 ∧ (after 0x00EE s).depth = 0 := by decide

theorem test_ret_underflow :
    (after 0x00EE State.reset).fault = some (.stackUnderflow 0x200) ∧ (after 0x00EE State.reset).pc = 0x200 := by
  decide

theorem test_jp : (after 0x1ABC State.reset).pc = 0xABC ∧ (after 0x1201 State.reset).pc = 0x201 := by decide

/-- W5 and the call at 0xFFE, which pushes 0x1000. -/
theorem test_call :
    (after 0x2300 State.reset).pc = 0x300 ∧ (after 0x2300 State.reset).depth = 1 ∧
    (after 0x2300 State.reset).stack[0] = 0x202 ∧
    (after 0x2200 { State.reset with pc := 0xFFE }).stack[0] = 0x1000 := by decide

theorem test_call_overflow :
    let s := { State.reset with depth := 16 }
    (after 0x2300 s).fault = some (.stackOverflow 0x200) ∧ (after 0x2300 s).pc = 0x200 ∧
    (after 0x2300 { State.reset with depth := 15 }).stack[15] = 0x202 := by decide

theorem test_skips_literal :
    (after 0x3205 (withRegs [(2, 5)])).pc = 0x204 ∧ (after 0x3206 (withRegs [(2, 5)])).pc = 0x202 ∧
    (after 0x4304 (withRegs [(3, 4)])).pc = 0x202 ∧ (after 0x4305 (withRegs [(3, 4)])).pc = 0x204 ∧
    (after 0x3000 { State.reset with pc := 0xFFC }).pc = 0x1000 := by decide

theorem test_skips_register :
    (after 0x5120 (withRegs [(1, 7), (2, 7)])).pc = 0x204 ∧ (after 0x5120 (withRegs [(1, 7)])).pc = 0x202 ∧
    (after 0x9120 (withRegs [(1, 7), (2, 8)])).pc = 0x204 ∧ (after 0x9330 (withRegs [(3, 9)])).pc = 0x202 := by decide

theorem test_jp_v0 :
    (after 0xB400 (withRegs [(0, 0x02)])).pc = 0x402 ∧ (after 0xBFFF (withRegs [(0, 0xFF), (15, 1)])).pc = 0x10FE := by
  decide

/-- Fetch above 0xFFE (R80): the lowest address outside memory is recorded. -/
theorem test_fetch_out_of_bounds :
    ({ State.reset with pc := 0xFFF } : State).hostStep.1 = .stepError (.outOfBoundsAccess 0x1000 0xFFF) ∧
    ({ State.reset with pc := 0xFFF } : State).hostStep.2.pc = 0xFFF ∧
    ({ State.reset with pc := 0x10FE } : State).hostStep.1 = .stepError (.outOfBoundsAccess 0x10FE 0x10FE) := by
  decide

/-! ### Loads and the ALU (95_test_vectors.md, W7 and Part 2) -/

theorem test_ld_literal :
    (after 0x6A42 State.reset).reg 10 = 0x42 ∧ (after 0x6F42 State.reset).reg 15 = 0x42 := by decide

theorem test_add_literal :
    let t := after 0x7001 (withRegs [(0, 0xFF), (15, 0x55)])
    t.reg 0 = 0x00 ∧ t.reg 15 = 0x55 ∧ t.pc = 0x202 := by decide

theorem test_ld_register :
    let t := after 0x8010 (withRegs [(0, 0x11), (1, 0x99)])
    t.reg 0 = 0x99 ∧ t.reg 1 = 0x99 := by decide

theorem test_bitwise :
    (after 0x8011 (withRegs [(0, 0xF0), (1, 0x0F), (15, 0x77)])).reg 0 = 0xFF ∧
    (after 0x8011 (withRegs [(0, 0xF0), (1, 0x0F), (15, 0x77)])).reg 15 = 0x77 ∧
    (after 0x8012 (withRegs [(0, 0xF0), (1, 0x3C)])).reg 0 = 0x30 ∧
    (after 0x8013 (withRegs [(0, 0xFF), (1, 0x0F)])).reg 0 = 0xF0 ∧
    (after 0x8003 (withRegs [(0, 0x5A)])).reg 0 = 0x00 := by decide

theorem test_add_carry :
    let t := after 0x8014 (withRegs [(0, 0xFA), (1, 0x0A)])
    t.reg 0 = 0x04 ∧ t.reg 15 = 1 ∧ t.reg 1 = 0x0A ∧
    (after 0x8014 (withRegs [(0, 0x7F), (1, 1), (15, 9)])).reg 15 = 0 := by decide

theorem test_add_aliasing :
    (after 0x8F14 (withRegs [(15, 0xF0), (1, 0x20)])).reg 15 = 0x21 ∧
    (after 0x80F4 (withRegs [(0, 0x10), (15, 0xF0)])).reg 0 = 0x11 ∧
    (after 0x80F4 (withRegs [(0, 0x10), (15, 0xF0)])).reg 15 = 1 ∧
    (after 0x8FF4 (withRegs [(15, 0x80)])).reg 15 = 0x02 := by decide

theorem test_sub :
    (after 0x8015 (withRegs [(0, 5), (1, 3)])).reg 15 = 1 ∧ (after 0x8015 (withRegs [(0, 3), (1, 5)])).reg 0 = 0xFE ∧
    (after 0x8015 (withRegs [(0, 4), (1, 4), (15, 1)])).reg 15 = 0 := by decide

theorem test_sub_aliasing :
    (after 0x8F15 (withRegs [(15, 0x10), (1, 0x05)])).reg 15 = 0xFC ∧
    (after 0x80F5 (withRegs [(0, 0x10), (15, 0x05)])).reg 0 = 0x0F ∧
    (after 0x8FF5 (withRegs [(15, 0x33)])).reg 15 = 0 := by decide

theorem test_subn :
    (after 0x8017 (withRegs [(0, 3), (1, 10)])).reg 0 = 7 ∧ (after 0x8017 (withRegs [(0, 3), (1, 10)])).reg 15 = 1 ∧
    (after 0x8017 (withRegs [(0, 5), (1, 3)])).reg 0 = 0xFE ∧
    (after 0x8017 (withRegs [(0, 7), (1, 7), (15, 1)])).reg 15 = 0 := by decide

theorem test_subn_aliasing :
    (after 0x8F17 (withRegs [(15, 0x01), (1, 0x10)])).reg 15 = 0x0F ∧
    (after 0x80F7 (withRegs [(0, 0x02), (15, 0x10)])).reg 0 = 0xFF := by decide

theorem test_shr :
    (after 0x80A6 (withRegs [(0, 0xFE), (10, 0x01), (15, 1)])).reg 0 = 0x7F ∧
    (after 0x80A6 (withRegs [(0, 0xFE), (10, 0x01), (15, 1)])).reg 15 = 0 ∧
    (after 0x8006 (withRegs [(0, 0x01)])).reg 15 = 1 ∧ (after 0x8FF6 (withRegs [(15, 0xFF)])).reg 15 = 0 := by decide

theorem test_shl :
    (after 0x850E (withRegs [(5, 0x81)])).reg 5 = 0x02 ∧ (after 0x850E (withRegs [(5, 0x81)])).reg 15 = 1 ∧
    (after 0x8F0E (withRegs [(15, 0x80)])).reg 15 = 0x02 ∧ (after 0x8F0E (withRegs [(15, 0x40)])).reg 15 = 0 := by
  decide

/-- `C3FF` gives the free byte, and the next draw is a fresh one. -/
theorem test_rnd :
    (after 0xC3FF State.reset).reg 3 = Config.randomByte 0 &&& 0xFF ∧ (after 0xC3FF State.reset).draws = 1 :=
  ⟨rfl, rfl⟩

/-! ### The address register and memory (95_test_vectors.md, W9, W10 and Part 2) -/

theorem test_ld_i : (after 0xA123 State.reset).i = 0x123 := by decide

theorem test_add_i :
    (after 0xF01E (withI 0xFFF [(0, 1)])).i = 0x1000 ∧ (after 0xF01E (withI 0xFFFF [(0, 2)])).i = 0x0001 := by decide

theorem test_ld_f :
    (after 0xF029 (withRegs [(0, 0x0F)])).i = 0x04B ∧ (after 0xF029 (withRegs [(0, 0xFF)])).i = 0x4FB := by decide

theorem test_ld_b :
    let t := after 0xF533 (withI 0x300 [(5, 234)])
    t.mem.byteAt 0x300 = 2 ∧ t.mem.byteAt 0x301 = 3 ∧ t.mem.byteAt 0x302 = 4 ∧ t.i = 0x300 := by decide

theorem test_ld_b_bounds :
    (after 0xF033 (withI 0xFFD [(0, 9)])).mem.byteAt 0xFFF = 9 ∧
    (after 0xF033 (withI 0xFFE [])).fault = some (.outOfBoundsAccess 0x1000 0x200) ∧
    (after 0xF033 (withI 0x04F [])).fault = some (.romWrite 0x04F 0x200) ∧
    (after 0xF033 (withI 0x050 [(0, 7)])).mem.byteAt 0x052 = 7 := by decide

theorem test_store_block :
    let t := after 0xF255 (withI 0x300 [(0, 1), (1, 2), (2, 3), (3, 4)])
    t.mem.byteAt 0x300 = 1 ∧ t.mem.byteAt 0x301 = 2 ∧ t.mem.byteAt 0x302 = 3 ∧ t.mem.byteAt 0x303 = 0 ∧
    t.i = 0x303 := by decide

theorem test_store_block_bounds :
    (after 0xFF55 (withI 0xFF0 [(15, 15)])).mem.byteAt 0xFFF = 15 ∧ (after 0xFF55 (withI 0xFF0 [])).i = 0x1000 ∧
    (after 0xFF55 (withI 0xFF1 [(0, 1)])).fault = some (.outOfBoundsAccess 0x1000 0x200) ∧
    (after 0xFF55 (withI 0xFF1 [(0, 1)])).mem.byteAt 0xFF1 = 0 ∧
    (after 0xF055 (withI 0x040 [])).fault = some (.romWrite 0x040 0x200) := by decide

theorem test_load_block :
    let t := after 0xF465 (withRegs [(5, 0x77)])
    t.reg 0 = 0xF0 ∧ t.reg 1 = 0x90 ∧ t.reg 4 = 0xF0 ∧ t.reg 5 = 0x77 ∧ t.i = 0x005 := by decide

theorem test_load_block_bounds :
    (after 0xF065 (withI 0xFFFF [(0, 3)])).fault = some (.outOfBoundsAccess 0xFFFF 0x200) ∧
    (after 0xF065 (withI 0xFFFF [(0, 3)])).reg 0 = 3 := by decide

/-- Fetch reads memory as the step before left it, and an odd `PC` is allowed (R71, R76). -/
theorem test_fetch_at_odd_pc :
    ({ withBytes State.reset 0x201 [0x6A, 0x42] with pc := 0x201 } : State).fetch = .ok 0x6A42 := by decide

/-- The default `FONT` (R64): the first glyph byte of 0 and the last of F, and 0 above the table. -/
theorem test_reset_memory :
    State.reset.mem.byteAt 0 = 0xF0 ∧ State.reset.mem.byteAt 0x023 = 0xF0 ∧ State.reset.mem.byteAt 0x026 = 0x40 ∧
    State.reset.mem.byteAt 0x04F = 0x80 ∧ State.reset.mem.byteAt 0x050 = 0 ∧ State.reset.mem.byteAt 0xFFF = 0 := by decide

/-! ### The display (95_test_vectors.md, W3, W8 and Part 2) -/

theorem test_cls :
    let lit : State := { State.reset with disp := (State.reset.disp.set 0 (Vector.replicate 64 true)), pc := 0x200 }
    litCorner (after 0x00E0 lit) = [] ∧ Display.pixel lit.disp 3 0 = true := by decide

/-- W8, the first draw: the digit-0 glyph, 14 pixels. -/
theorem test_drw_glyph :
    litCorner (after 0xD015 State.reset) =
      [(0, 0), (1, 0), (2, 0), (3, 0), (0, 1), (3, 1), (0, 2), (3, 2), (0, 3), (3, 3), (0, 4), (1, 4), (2, 4), (3, 4)] ∧
    (after 0xD015 (withRegs [(15, 1)])).reg 15 = 0 := by decide

/-- Clipping at the right edge, the collision there, a coordinate in `VF`, and a height of 0. -/
theorem test_drw_edges :
    let row := fun (regs : List (Reg × Byte)) (b : Byte) => withBytes (withI 0x300 regs) 0x300 [b]
    let clipped := after 0xD121 (row [(1, 0x3C), (15, 1)] 0xFF)
    Display.pixel clipped.disp 60 0 = true ∧ Display.pixel clipped.disp 63 0 = true ∧
    Display.pixel clipped.disp 0 0 = false ∧ clipped.reg 15 = 0 ∧
    (after 0xD121 clipped).reg 15 = 1 ∧
    litCorner (after 0xDF11 (row [(15, 5)] 0x80)) = [(5, 0)] ∧ (after 0xDF11 (row [(15, 5)] 0x80)).reg 15 = 0 ∧
    (after 0xD010 (withI 0xFFFF [(15, 1)])).reg 15 = 0 ∧
    (after 0xD122 (withI 0xFFF [])).fault = some (.outOfBoundsAccess 0x1000 0x200) := by decide

/-! ### Keypad, timers and the host (95_test_vectors.md, W1, W2, W11 and Part 2) -/

theorem test_key_skips :
    let down : State := (withRegs [(0, 0xF), (1, 3)]).setKeyState 15 true
    (after 0xE09E down).pc = 0x204 ∧ (after 0xE0A1 down).pc = 0x202 ∧ (after 0xE1A1 down).pc = 0x204 ∧
    (after 0xE19E down).pc = 0x202 := by decide

theorem test_key_index :
    (after 0xE09E (withRegs [(0, 0x10)])).fault = some (.keyIndexOutOfRange 0x10 0x200) ∧
    (after 0xE0A1 (withRegs [(0, 0xFF)])).fault = some (.keyIndexOutOfRange 0xFF 0x200) := by decide

theorem test_timers :
    (after 0xF607 { State.reset with dt := 0x2A, st := 1 }).reg 6 = 0x2A ∧ (after 0xF015 (withRegs [(0, 5)])).dt = 5 ∧
    (after 0xF018 (withRegs [(0, 3)])).st = 3 ∧ (after 0xF018 (withRegs [(0, 3)])).dt = 0 := by decide

/-- W11, with the vector on `WaitingForKey(15)`. -/
theorem test_wait_for_key :
    let s := after 0xF70A State.reset
    s.status = .waitingForKey 7 ∧ s.pc = 0x200 ∧ s.hostStep = (.ok, s) ∧ (s.deliverKeyPress 0xC).reg 7 = 0x0C ∧
    (s.deliverKeyPress 0xC).pc = 0x202 ∧ (s.deliverKeyPress 0xC).status = .running ∧
    (({ State.reset with status := .waitingForKey 15 } : State).deliverKeyPress 3).reg 15 = 3 := by decide

theorem test_tick :
    ({ State.reset with st := 1 } : State).timerTick.st = 0 ∧ ({ State.reset with st := 1 } : State).timerTick.dt = 0 ∧
    ({ State.reset with dt := 9, status := .waitingForKey 2 } : State).timerTick.dt = 8 := by decide

/-- An error is sticky, ticks still run, and `init` clears it (95_test_vectors.md, errors and stickiness). -/
theorem test_sticky_fault :
    let s := after 0xFFFF State.reset
    s.fault = some (.unknownInstruction 0xFFFF 0x200) ∧ s.pc = 0x200 ∧
    s.hostStep = (.stepError (.unknownInstruction 0xFFFF 0x200), s) ∧ ({ s with dt := 3 } : State).timerTick.dt = 2 ∧
    (perform (.init defaultFont) s).2 = State.reset := by decide

/-- W1, W2 (its length only) and the loads of no bytes. -/
theorem test_load :
    (performAll [.init defaultFont, .load (some [0x12, 0x00])] State.reset).mem = [(0x200, 0x12)] ∧
    perform (.load none) State.reset = (.loadError .loadUnreadable, State.reset) ∧
    perform (.load (some [])) State.reset = (.ok, State.reset) := by decide

/-! ### Witnesses: for each statement with hypotheses, a state and operands that meet them together

The operands stand at the boundary of each clause's range. -/

/-- A running machine at the last address a word can be fetched from, with `JP 0xFFF` there. -/
def atTop : State := withBytes { State.reset with pc := 0xFFE } 0xFFE [0x1F, 0xFF]

/-- A machine with a fault recorded. -/
def faulted : State := { State.reset with fault := some (.stackUnderflow 0x200) }

/-- A machine that waits for a key, for `V[15]`. -/
def waiting : State := { State.reset with status := .waitingForKey 15 }

/-- A machine with `d` return addresses stacked, at the last address a word can be fetched from. -/
def atDepth (d : Fin 17) : State := { State.reset with pc := 0xFFE, depth := d }

/-- All host operations but `init` and `deliver key press`. -/
def quietOps : List HostOp :=
  [.load (some [1, 2]), .load none, .step, .timerTick, .setKeyState 15 true, .snapshot, .soundActive]

theorem witness_DecodeInvertsEncode :
    Instr.wf (.drw 15 15 15) = true ∧ Instr.wf (.drw 0 0 0) = true ∧ Instr.wf (.jp 0xFFF) = true ∧
    Instr.wf (.seK 15 0xFF) = true := by decide

theorem witness_EncodeInvertsDecode :
    decode 0xD01F = .ok (.drw 0 1 15) ∧ decode 0x8FFE = .ok (.shl 15 15) := by decide

/-- The running machine with the word `w` where it fetches next. -/
def fetching (w : Word) : State := withBytes State.reset 0x200 (wordBytes w)

/-- One word of each class of R95, at an end of the class, with a running machine that fetches it; and a word of none. -/
theorem witness_UnknownWordsAreTheFiveClasses :
    (∀ w ∈ ([0x0FFF, 0x5121, 0x912F, 0x8FFF, 0xEF9F, 0xFF66] : List Word),
      (fetching w).fault = none ∧ (fetching w).status = .running ∧ (fetching w).fetch = .ok w) ∧
    (0x0FFF#16).toNat / 4096 = 0x0 ∧ ((0x5121#16).toNat / 4096 = 0x5 ∧ (0x5121#16).toNat % 16 ≠ 0) ∧
    ((0x912F#16).toNat / 4096 = 0x9 ∧ (0x912F#16).toNat % 16 ≠ 0) ∧
    ((0x8FFF#16).toNat / 4096 = 0x8 ∧ (0x8FFF#16).toNat % 16 ∈ [0x8, 0x9, 0xA, 0xB, 0xC, 0xD, 0xF]) ∧
    ((0xEF9F#16).toNat / 4096 = 0xE ∧ (0xEF9F#16).toNat % 256 ≠ 0x9E ∧ (0xEF9F#16).toNat % 256 ≠ 0xA1) ∧
    ((0xFF66#16).toNat / 4096 = 0xF ∧
      (0xFF66#16).toNat % 256 ∉ [0x07, 0x0A, 0x15, 0x18, 0x1E, 0x29, 0x33, 0x55, 0x65]) ∧
    (0x1FFF#16).toNat / 4096 = 0x1 := by
  refine ⟨?_, by decide, by decide, by decide, by decide, by decide, by decide, by decide⟩
  intro w hw
  simp only [List.mem_cons, List.not_mem_nil, or_false] at hw
  rcases hw with rfl | rfl | rfl | rfl | rfl | rfl <;> decide

theorem witness_StepRunsTheDecodedInstruction :
    atTop.fault = none ∧ atTop.status = .running ∧ atTop.pc.toNat ≤ 0xFFE ∧
    (0x1FFF#16).toNat =
      (atTop.mem.byteAt atTop.pc.toNat).toNat * 256 + (atTop.mem.byteAt (atTop.pc.toNat + 1)).toNat ∧
    decode 0x1FFF = .ok (.jp 0xFFF) := by decide

theorem witness_StepChecksInOrder :
    faulted.fault = some (.stackUnderflow 0x200) ∧
    (waiting.fault = none ∧ waiting.status = .waitingForKey 15) ∧
    (let s : State := { State.reset with pc := 0xFFF }
     s.fault = none ∧ s.status = .running ∧ s.pc.toNat = 0xFFF) ∧
    (let s : State := { State.reset with pc := 0x1000 }
     s.fault = none ∧ s.status = .running ∧ 0xFFF < s.pc.toNat) := by decide

theorem witness_EveryInstructionAnswersNext : atTop.fault = none ∧ waiting.fault = none := by decide

/-- A step that records an error (the fetch at 0xFFF) and one that does not. -/
theorem witness_StepErrorDiscardsTheStep :
    (∃ t, step { State.reset with pc := 0xFFF } = .next t ∧ t.fault ≠ none) ∧
    ∃ t, step atTop = .next t ∧ t.fault = none :=
  ⟨⟨_, rfl, by decide⟩, ⟨_, rfl, by decide⟩⟩

theorem witness_RecordedFaultIsFinal :
    faulted.fault = some (.stackUnderflow 0x200) ∧ faulted.status = .running ∧
    ∀ op ∈ .deliverKeyPress 3 :: quietOps, op.isInit = false := by decide

/-- `exec i s` answers a next state with no fault recorded. -/
def runsClean (i : Instr) (s : State) : Bool :=
  match exec i s with
  | .next t => t.fault = none
  | .fault _ => false
  | .refused _ => false

theorem runsClean_next {i : Instr} {s : State} (h : runsClean i s = true) :
    ∃ t, exec i s = .next t ∧ t.fault = none := by
  unfold runsClean at h
  split at h
  · exact ⟨_, ‹_›, by simpa using h⟩
  all_goals cases h

/-- A state at the last `PC` from which every kind of arm is taken, skips both ways: each of these instructions answers
a next state with no fault there, and `RET` on the empty stack one with a fault. -/
theorem witness_ProgramCounterPolicy :
    ((atDepth 1).fault = none ∧ (atDepth 1).pc.toNat ≤ 0xFFE) ∧
    (∃ t, exec .ret (atDepth 0) = .next t ∧ t.fault ≠ none) ∧
    (∀ i ∈ ([.jp 0xFFF, .call 0xFFF, .jpV0 0xFFF, .ret, .seK 0 0, .seK 0 1, .sneK 0 0, .sneK 0 1, .seR 1 2, .sneR 1 2,
        .skp 0, .sknp 0, .ldVK 0, .cls, .ldBlock 15] : List Instr),
      ∃ t, exec i (atDepth 1) = .next t ∧ t.fault = none) ∧
    waiting.status = .waitingForKey 15 := by
  refine ⟨by decide, ⟨_, rfl, by decide⟩, fun i hi => runsClean_next ?_, by decide⟩
  revert i
  decide

theorem witness_RetPopsTheStack :
    0 < (atDepth 1).depth.val ∧ 0 < (atDepth 16).depth.val ∧ (atDepth 0).depth.val = 0 := by decide

theorem witness_CallPushesThePostFetchPc :
    ((atDepth 0).depth.val < 16 ∧ (atDepth 0).pc.toNat ≤ 0xFFE) ∧
    ((atDepth 15).depth.val < 16 ∧ (atDepth 15).pc.toNat ≤ 0xFFE) ∧ (atDepth 16).depth.val = 16 := by decide

theorem witness_CallThenReturnRoundTrip : (atDepth 15).depth.val < 16 ∧ (atDepth 15).pc.toNat ≤ 0xFFE := by decide

/-- The operand cases of the bitwise, adding, subtracting and shifting statements and of the random byte: apart from
`VF`, each alone `VF`, both `VF`; equal; a literal of 0 and of 0xFF. -/
theorem witness_operand_cases :
    ((0 : Reg) ≠ 15 ∧ (14 : Reg) ≠ 15) ∧ ((0 : Reg) ≠ 15 ∧ (15 : Reg) = 15) ∧ ((15 : Reg) = 15 ∧ (14 : Reg) ≠ 15) ∧
    ((3 : Reg) = 3 ∧ (7 : Nat) < 8) ∧ (0x00#8 = 0 ∧ 0xFF#8 = 0xFF) := by decide

/-- Each clause at the ends of its range: 0x050 and 0xFFD, 0xFFE and 0xFFFF, 0 and 0x04F. -/
theorem witness_StoreBcdDigits :
    Memory.wf (withI 0x050 []).mem = true ∧
    (0x050 ≤ (withI 0x050 []).base ∧ (withI 0x050 []).base ≤ 0xFFD) ∧
    (0x050 ≤ (withI 0xFFD []).base ∧ (withI 0xFFD []).base ≤ 0xFFD) ∧
    0xFFE ≤ (withI 0xFFE []).base ∧ 0xFFE ≤ (withI 0xFFFF []).base ∧
    (withI 0x04F []).base ≤ 0x04F ∧ (withI 0 []).base ≤ 0x04F := by decide

/-- Each clause at the ends of its range; with `x = 15` the last full block starts at 0xFF0. -/
theorem witness_StoreRegisterBlock :
    Memory.wf (withI 0x050 []).mem = true ∧
    (0x050 ≤ (withI 0x050 []).base ∧ (withI 0x050 []).base + (15 : Reg).val ≤ 0xFFF) ∧
    (0x050 ≤ (withI 0xFF0 []).base ∧ (withI 0xFF0 []).base + (15 : Reg).val ≤ 0xFFF) ∧
    (0x050 ≤ (withI 0xFFF []).base ∧ (withI 0xFFF []).base + (0 : Reg).val ≤ 0xFFF) ∧
    0xFFF < (withI 0xFF1 []).base + (15 : Reg).val ∧ 0xFFF < (withI 0x1000 []).base + (0 : Reg).val ∧
    (withI 0x04F []).base ≤ 0x04F ∧ ((0 : Reg) ≤ 15 ∧ (15 : Reg) ≤ 15) := by decide

theorem witness_LoadRegisterBlock :
    (withI 0 []).base + (15 : Reg).val ≤ 0xFFF ∧ (withI 0xFF0 []).base + (15 : Reg).val ≤ 0xFFF ∧
    0xFFF < (withI 0xFF1 []).base + (15 : Reg).val ∧ 0xFFF < (withI 0xFFFF []).base + (0 : Reg).val ∧
    ((3 : Reg) ≤ 3 ∧ (3 : Reg) < 4) := by decide

theorem witness_StoreThenLoadReproducesRegisters :
    Memory.wf (withI 0xFF0 [(0, 1)]).mem = true ∧ 0x050 ≤ (withI 0xFF0 [(0, 1)]).base ∧
    (withI 0xFF0 [(0, 1)]).base + (15 : Reg).val ≤ 0xFFF := by decide

theorem witness_ReadReturnsLastWrite :
    Memory.wf atTop.mem = true ∧ (0x050 ≤ 0x050 ∧ 0x050 ≤ 0xFFF) ∧ (0x050 ≤ 0xFFF ∧ 0xFFF ≤ 0xFFF) ∧
    0xFFF < 0x1000 ∧ 0x04F ≤ 0x04F := by decide

theorem witness_NextFetchSeesTheStore :
    let s := withI 0x202 [(0, 0x12), (1, 0x34)]
    Memory.wf s.mem = true ∧ 1 ≤ (1 : Reg).val ∧ s.pc.toNat ≤ 0xFFE ∧ s.i = s.pc + 2 ∧ 0x050 ≤ s.base ∧
    s.base + (1 : Reg).val ≤ 0xFFF := by decide

theorem witness_CanonicalMemoriesAreExtensional :
    Memory.wf [(0x200, 1), (0xFFF, 2)] = true ∧
    ∀ a, a < 4096 → Memory.byteAt [(0x200, 1), (0xFFF, 2)] a = Memory.byteAt [(0x200, 1), (0xFFF, 2)] a :=
  ⟨by decide, fun _ _ => rfl⟩

/-- A height of 0 with `I` outside memory, the last sprite that fits, and the first that does not. -/
theorem witness_DrawXorsTheSprite :
    (0 = 0 ∨ (withI 0xFFFF []).base + 0 ≤ 0x1000) ∧ (15 = 0 ∨ (withI 0xFF1 []).base + 15 ≤ 0x1000) ∧
    (0 < 15 ∧ 0x1000 < (withI 0xFF2 []).base + 15) ∧ (0 < 1 ∧ 0x1000 < (withI 0x1000 []).base + 1) := by decide

theorem witness_DrawingTwiceRestoresTheDisplay :
    (0 : Reg) ≠ 15 ∧ (14 : Reg) ≠ 15 ∧ (15 = 0 ∨ (withI 0xFF1 []).base + 15 ≤ 0x1000) := by decide

theorem witness_KeySkipsReadTheKeypad :
    ((withRegs [(0, 15)]).reg 0).toNat < 16 ∧ 15 < ((withRegs [(0, 16)]).reg 0).toNat := by decide

theorem witness_WaitForKeyHoldsThePc : atTop.fault = none := by decide

theorem witness_WaitEndsOnlyByDelivery :
    waiting.fault = none ∧ waiting.status = .waitingForKey 15 ∧
    ∀ op ∈ quietOps, op.isInit = false ∧ op.isDelivery = false := by decide

theorem witness_KeyDeliveryNeedsAWait :
    waiting.status = .waitingForKey 15 ∧ atTop.status = .running ∧ faulted.status = .running := by decide

/-- The longest image that fits, the shortest that does not, and the empty one. -/
theorem witness_LoadPlacesTheImage :
    Memory.wf atTop.mem = true ∧ (List.replicate 0xE00 (0xAA : Byte)).length ≤ 0xE00 ∧
    0xE00 < (List.replicate 0xE01 (0xAA : Byte)).length ∧ ([] : List Byte).length ≤ 0xE00 := by
  refine ⟨by decide, ?_, ?_, by decide⟩ <;> simp only [List.length_replicate] <;> decide

theorem witness_LoadedProgramRunsFirst :
    (List.replicate 0xDFE (0xAA : Byte)).length + 2 ≤ 0xE00 ∧
    (0x1234#16).toNat = (0x12#8).toNat * 256 + (0x34#8).toNat ∧ decode 0x1234 = .ok (.jp 0x234) := by
  refine ⟨?_, by decide, by decide⟩
  simp only [List.length_replicate]
  decide

theorem witness_PlacedWordRunsNext : Memory.wf atTop.mem = true ∧ decode 0x00E0 = .ok .cls := by decide

theorem witness_OnlyStoresChangeMemory :
    (∀ x, Instr.ldBlock 3 ≠ .ldB x) ∧ (∀ x, Instr.ldBlock 3 ≠ .stBlock x) ∧
    ∃ t, exec (.ldBlock 3) State.reset = .next t :=
  ⟨by decide, by decide, _, rfl⟩

theorem witness_GlyphRegionIsNeverOverwritten :
    (∃ t, step atTop = .next t) ∧ 0x04F ≤ 0x04F ∧ HostOp.isInit .step = false :=
  ⟨⟨_, rfl⟩, by decide, by decide⟩

/-- The digit-0 glyph drawn on the display that is all off changes it; every other hypothesis stands beside it. -/
theorem witness_DisplayIsMutatedOnlyByClearAndDraw :
    (∃ t, exec (.drw 0 1 5) State.reset = .next t ∧ t.disp ≠ State.reset.disp) ∧
    (HostOp.timerTick ≠ .step ∧ HostOp.timerTick.isInit = false) ∧ 2047 < 2048 ∧ ∃ t, exec .cls atTop = .next t :=
  ⟨⟨_, rfl, by decide⟩, by decide, by decide, _, rfl⟩

theorem witness_TimersAndKeypadHaveOneWriterEach :
    (∃ t, exec .cls waiting = .next t) ∧ (∀ x, Instr.cls ≠ .ldDtV x) ∧ (∀ x, Instr.cls ≠ .ldStV x) ∧
    (HostOp.snapshot ≠ .step ∧ HostOp.snapshot.isInit = false ∧ HostOp.snapshot ≠ .timerTick ∧
      ∀ k down, HostOp.snapshot ≠ .setKeyState k down) :=
  ⟨⟨_, rfl⟩, by decide, by decide, by decide, by decide, by decide, fun _ _ => by simp⟩

theorem witness_RegistersAreWrittenAsTabled :
    (∃ t, exec (.addR 3 4) atTop = .next t) ∧ Instr.writesReg (.addR 3 4) 14 = false ∧
    Instr.writesReg (.ldBlock 14) 15 = false := ⟨⟨_, rfl⟩, by decide, by decide⟩

theorem witness_OtherStateIsWrittenAsStated :
    (∃ t, exec .cls atTop = .next t) ∧ Instr.cls.writesI = false ∧ Instr.cls ≠ .ret ∧ (∀ nnn, Instr.cls ≠ .call nnn) ∧
    (∀ x, Instr.cls ≠ .ldVK x) ∧ ∀ x kk, Instr.cls ≠ .rnd x kk :=
  ⟨⟨_, rfl⟩, by decide, by decide, fun _ => by simp, by decide, fun _ _ => by simp⟩

theorem witness_UnreadStateDoesNotInfluence :
    (∃ t, exec (.ldK 15 0xFF) waiting = .next t) ∧ (∀ x, Instr.ldK 15 0xFF ≠ .ldVDt x) ∧
    (∀ x, Instr.ldK 15 0xFF ≠ .ldDtV x) ∧ (∀ x, Instr.ldK 15 0xFF ≠ .ldStV x) ∧ (∀ x, Instr.ldK 15 0xFF ≠ .skp x) ∧
    (∀ x, Instr.ldK 15 0xFF ≠ .sknp x) ∧ Instr.ldK 15 0xFF ≠ .cls ∧ (∀ x y n, Instr.ldK 15 0xFF ≠ .drw x y n) ∧
    ∀ x kk, Instr.ldK 15 0xFF ≠ .rnd x kk :=
  ⟨⟨_, rfl⟩, by decide, by decide, by decide, by decide, by decide, by decide, fun _ _ _ => by simp,
    fun _ _ => by simp⟩

/-- A state inside the invariant at its bounds: `PC` at its largest value and the topmost stacked address at 0x1000. -/
def atBounds : State :=
  { State.reset with pc := 0x10FE, depth := 16, stack := Vector.replicate 16 0x1000, mem := [(0xFFF, 1)] }

theorem witness_StepKeepsTheInvariant : atBounds.Inv ∧ ∃ t, step atBounds = .next t :=
  ⟨⟨by decide, by decide, by decide, by simp [atBounds, State.reset], by simp [atBounds, State.reset]⟩, _, rfl⟩

/-- The same state with the fault its next step records. -/
theorem witness_HostOperationsKeepTheInvariant :
    ({ atBounds with fault := some (.outOfBoundsAccess 0x10FE 0x10FE) } : State).Inv := by
  refine ⟨by decide, by decide, by decide, by simp [atBounds, State.reset], ?_⟩
  intro e he
  cases he
  exact ⟨by decide, by decide, by decide⟩

end Sys2Proof.Tests
end

section
/-! PROOFS. The `PC` after every instruction, said once (spec/10_state.md R26), and the obligation about it. -/

namespace Sys2Proof.Machine

/-! ### What an operation that can fail leaves unchanged -/

/-- A body that maps the value of a fallible operation completes with that value, or records an error. -/
theorem State.complete_map_cases {α : Type} {s t : State} {r : Except Fault α} {f : α → State}
    (h : s.complete (r.map f) = .next t) : (∃ e, t = s.recordFault e) ∨ ∃ a, r = .ok a ∧ t = f a := by
  cases r with
  | error e => exact .inl ⟨e, (Host.Outcome.next.inj h).symm⟩
  | ok a => exact .inr ⟨a, rfl, (Host.Outcome.next.inj h).symm⟩

/-- A successful write changes nothing but memory (R67). -/
theorem State.memWrite_frame {s t : State} {a : Nat} {b : Byte} (h : s.memWrite a b = .ok t) :
    t = { s with mem := t.mem } := by
  unfold State.memWrite at h
  split at h
  · cases h
  · split at h
    · cases h
    · cases h; rfl

/-- A successful block of writes changes nothing but memory (R68). -/
theorem State.writeBlock_frame (bs : List Byte) : ∀ {s t : State} {a : Nat}, s.writeBlock a bs = .ok t →
    t = { s with mem := t.mem } := by
  induction bs with
  | nil => intro s t a h; cases h; rfl
  | cons b bs ih =>
    intro s t a h
    rw [State.writeBlock] at h
    split at h
    · cases h
    · next u hu => rw [ih h, State.memWrite_frame hu]

/-- A push records no error when it succeeds (R28). -/
theorem State.push_fault {s t : State} {w : Word} (h : s.push w = .ok t) : t.fault = s.fault := by
  obtain ⟨_, hp⟩ | ⟨_, hp⟩ := s.push_eq w
  · rw [hp] at h; cases h; rfl
  · rw [hp] at h; cases h

/-- A pop that succeeds gives the topmost return address and records no error (R28). -/
theorem State.pop_top {s t : State} {w : Word} (h : s.pop = .ok (w, t)) :
    w = s.stack[s.depth.val - 1] ∧ t.fault = s.fault := by
  obtain ⟨_, hp⟩ | ⟨_, hp⟩ := s.pop_eq
  · rw [hp] at h; cases h; exact ⟨rfl, rfl⟩
  · rw [hp] at h; cases h

/-- A key skip skips on the wanted key state, or records an error (R200, R201). -/
theorem State.skipOnKey_cases {s t : State} {x : Reg} {wanted : Bool} (h : s.skipOnKey x wanted = .next t) :
    (∃ e, t = s.recordFault e) ∨ t = s.skipIf (s.keyDown? (s.reg x) == some wanted) := by
  unfold State.skipOnKey at h
  cases hk : s.keyDown? (s.reg x) with
  | none => rw [hk] at h; cases h; exact .inl ⟨_, rfl⟩
  | some down => rw [hk] at h; cases h; exact .inr rfl

/-! ### The instructions that can fail, as their fallible operation and what is made of its value -/

theorem exec_ret_eq (s : State) : exec .ret s = s.complete (s.pop.map fun p => p.2.setPc p.1) := by
  simp only [exec, execRet]
  cases s.pop <;> rfl

theorem exec_call_eq (nnn : Addr12) (s : State) :
    exec (.call nnn) s = s.complete ((s.push (s.pc + 2)).map fun t => t.setPc (zextAddr nnn)) := by
  simp only [exec, execCall]
  cases s.push (s.pc + 2) <;> rfl

/-- The display and `VF` after the sprite `rows` is drawn at `(V[x], V[y])` (R181). -/
def State.blit (s : State) (x y : Reg) (rows : List Byte) : State :=
  let p := Blit.rows (s.reg x).toNat (s.reg y).toNat 0 rows { disp := s.disp, collided := false }
  { s with disp := p.disp }.setFlag (flagByte p.collided)

theorem exec_drw_eq (x y : Reg) (n : Nat) (s : State) :
    exec (.drw x y n) s = s.complete ((s.readBlock s.base n).map fun rows => (s.blit x y rows).advance) := by
  simp only [exec, execDrw]
  cases s.readBlock s.base n <;> rfl

theorem exec_ldB_eq (x : Reg) (s : State) :
    exec (.ldB x) s = s.complete ((s.writeBlock s.base (bcdDigits (s.reg x))).map State.advance) := by
  simp only [exec, execLdB]
  cases s.writeBlock s.base (bcdDigits (s.reg x)) <;> rfl

theorem exec_stBlock_eq (x : Reg) (s : State) :
    exec (.stBlock x) s =
      s.complete ((s.writeBlock s.base (s.regBlock x)).map fun t => (t.setI (s.advancedI x)).advance) := by
  simp only [exec, execStBlock]
  cases s.writeBlock s.base (s.regBlock x) <;> rfl

theorem exec_ldBlock_eq (x : Reg) (s : State) :
    exec (.ldBlock x) s = s.complete
      ((s.readBlock s.base (x.val + 1)).map fun bs => ((s.loadRegs 0 bs).setI (s.advancedI x)).advance) := by
  simp only [exec, execLdBlock]
  cases s.readBlock s.base (x.val + 1) <;> rfl

/-! ### The next `PC` -/

/-- The `PC` an instruction leaves when it raises no error: the rows of R26, in 16-bit arithmetic. -/
def State.nextPc (s : State) : Instr → Word
  | .jp nnn | .call nnn => zextAddr nnn
  | .jpV0 nnn => zextAddr nnn + zextByte (s.reg 0)
  | .ret => s.stack[s.depth.val - 1]
  | .seK x kk => (s.skipIf (s.reg x == kk)).pc
  | .sneK x kk => (s.skipIf (s.reg x != kk)).pc
  | .seR x y => (s.skipIf (s.reg x == s.reg y)).pc
  | .sneR x y => (s.skipIf (s.reg x != s.reg y)).pc
  | .skp x => (s.skipIf (s.keyDown? (s.reg x) == some true)).pc
  | .sknp x => (s.skipIf (s.keyDown? (s.reg x) == some false)).pc
  | .ldVK _ => s.pc
  | _ => s.advance.pc

/-- Everything an instruction can do to `PC` and the fault record: an error is recorded on the old state, or the record
is kept and `PC` is the next `PC`. -/
theorem exec_pc_cases {i : Instr} {s t : State} (h : exec i s = .next t) :
    (∃ e, t = s.recordFault e) ∨ (t.fault = s.fault ∧ t.pc = s.nextPc i) := by
  cases i with
  | ret =>
    rw [exec_ret_eq] at h
    obtain he | ⟨⟨w, u⟩, hu, rfl⟩ := State.complete_map_cases h
    · exact .inl he
    · obtain ⟨hw, hf⟩ := State.pop_top hu
      exact .inr ⟨hf, hw⟩
  | call nnn =>
    rw [exec_call_eq] at h
    obtain he | ⟨u, hu, rfl⟩ := State.complete_map_cases h
    · exact .inl he
    · exact .inr ⟨(State.setPc_fault ..).trans (State.push_fault hu), rfl⟩
  | seK | sneK | seR | sneR => cases h; exact .inr ⟨State.skipIf_fault .., rfl⟩
  | skp x | sknp x =>
    obtain he | rfl := State.skipOnKey_cases h
    · exact .inl he
    · exact .inr ⟨State.skipIf_fault .., rfl⟩
  | drw x y n =>
    rw [exec_drw_eq] at h
    obtain he | ⟨_, _, rfl⟩ := State.complete_map_cases h
    · exact .inl he
    · exact .inr ⟨rfl, rfl⟩
  | ldB x =>
    rw [exec_ldB_eq] at h
    obtain he | ⟨u, hu, rfl⟩ := State.complete_map_cases h
    · exact .inl he
    · rw [State.writeBlock_frame _ hu]; exact .inr ⟨rfl, rfl⟩
  | stBlock x =>
    rw [exec_stBlock_eq] at h
    obtain he | ⟨u, hu, rfl⟩ := State.complete_map_cases h
    · exact .inl he
    · rw [State.writeBlock_frame _ hu]; exact .inr ⟨rfl, rfl⟩
  | ldBlock x =>
    rw [exec_ldBlock_eq] at h
    obtain he | ⟨bs, _, rfl⟩ := State.complete_map_cases h
    · exact .inl he
    · rw [State.loadRegs_frame]; exact .inr ⟨rfl, rfl⟩
  | _ => cases h; exact .inr ⟨rfl, rfl⟩

/-! ### Exact arithmetic: from a fetchable `PC` no sum wraps -/

theorem zextAddr_toNat (nnn : Addr12) : (zextAddr nnn).toNat = nnn.toNat := by
  have := nnn.isLt
  simp only [zextAddr, BitVec.toNat_setWidth]
  omega

theorem zextAddr_add_zextByte_toNat (nnn : Addr12) (b : Byte) :
    (zextAddr nnn + zextByte b).toNat = nnn.toNat + b.toNat := by
  have := nnn.isLt
  have := b.isLt
  simp only [zextAddr, zextByte, BitVec.toNat_add, BitVec.toNat_setWidth]
  omega

theorem State.advance_pc_toNat {s : State} (h : s.pc.toNat ≤ 0xFFE) : s.advance.pc.toNat = s.pc.toNat + 2 := by
  rw [State.advance_pc]
  bv_omega

theorem State.skipIf_pc_toNat {s : State} {c : Bool} {p : Prop} [Decidable p] (h : s.pc.toNat ≤ 0xFFE)
    (hc : c = true ↔ p) : (s.skipIf c).pc.toNat = s.pc.toNat + if p then 4 else 2 := by
  simp only [State.skipIf_pc, hc]
  split
  · bv_omega
  · exact State.advance_pc_toNat h

/-- A delivered key ends the wait and advances (R204). -/
theorem State.deliverKeyPress_pc {s : State} {r : Reg} (k : Key) (h : s.status = .waitingForKey r) :
    (s.deliverKeyPress k).pc = s.advance.pc := by
  unfold State.deliverKeyPress
  rw [h]
  rfl

/-- Settles O10: by `exec_pc_cases` an error leaves `PC`, and otherwise each row is its `State.nextPc` read exactly. -/
theorem programCounterPolicy : Obligations.ProgramCounterPolicy := by
  intro s hs hpc
  refine ⟨fun i t h hf => ?_, fun i t h hf => ?_, fun r k hw => ?_⟩
  · obtain ⟨e, rfl⟩ | ⟨hf', -⟩ := exec_pc_cases h
    · rfl
    · exact absurd (hf'.trans hs) hf
  · obtain ⟨e, rfl⟩ | ⟨-, ht⟩ := exec_pc_cases h
    · simp at hf
    · cases i with
      | jp nnn | call nnn => exact ht ▸ zextAddr_toNat nnn
      | jpV0 nnn => exact ht ▸ zextAddr_add_zextByte_toNat nnn _
      | ret => exact ht ▸ Vector.getElem?_eq_getElem _
      | seK | seR | skp | sknp => exact ht ▸ State.skipIf_pc_toNat hpc beq_iff_eq
      | sneK | sneR => exact ht ▸ State.skipIf_pc_toNat hpc bne_iff_ne
      | ldVK => exact ht
      | _ => exact ht ▸ State.advance_pc_toNat hpc
  · rw [State.deliverKeyPress_pc k hw, State.advance_pc_toNat hpc]

end Sys2Proof.Machine
end

section
/-! PROOFS. The jumps (spec/40_control_flow.md R111, R117) and the skips on register and literal values (R113 to R116):
only `PC` changes. -/

namespace Sys2Proof.Machine

/-- The skip pattern changes `PC` alone, by 4 when its condition holds and by 2 otherwise (R11). -/
theorem State.skipIf_eq (s : State) {c : Bool} {p : Prop} [Decidable p] (hc : c = true ↔ p) :
    s.skipIf c = { s with pc := s.pc + if p then 4 else 2 } := by
  by_cases hp : p
  · rw [if_pos hp, hc.mpr hp]; rfl
  · rw [if_neg hp, Bool.eq_false_iff.mpr (mt hc.mp hp)]; rfl

/-- Settles O12: both jumps are a `State.setPc`, and neither target reaches 65536. -/
theorem jumpsSetPcExactly : Obligations.JumpsSetPcExactly :=
  fun s nnn =>
    ⟨⟨s.setPc (zextAddr nnn), rfl, rfl, zextAddr_toNat nnn⟩,
      ⟨s.setPc (zextAddr nnn + zextByte (s.reg 0)), rfl, rfl, zextAddr_add_zextByte_toNat nnn (s.reg 0)⟩⟩

/-- `SE Vx, Vy` (R115). -/
theorem exec_seR_eq (x y : Reg) (s : State) :
    exec (.seR x y) s = .next { s with pc := s.pc + if s.reg x = s.reg y then 4 else 2 } :=
  congrArg _ (s.skipIf_eq beq_iff_eq)

/-- `SNE Vx, Vy` (R116). -/
theorem exec_sneR_eq (x y : Reg) (s : State) :
    exec (.sneR x y) s = .next { s with pc := s.pc + if s.reg x ≠ s.reg y then 4 else 2 } :=
  congrArg _ (s.skipIf_eq bne_iff_ne)

/-- Settles O15: each skip is `State.skipIf` on its condition; on one register twice, equality holds by `rfl`. -/
theorem skipsCompareRegisters : Obligations.SkipsCompareRegisters := by
  intro s x y kk
  refine ⟨?seK, ?sneK, exec_seR_eq x y s, exec_sneR_eq x y s, ?seSame, ?sneSame⟩
  case seK => exact congrArg _ (s.skipIf_eq beq_iff_eq)
  case sneK => exact congrArg _ (s.skipIf_eq bne_iff_ne)
  case seSame => rw [exec_seR_eq, if_pos rfl]
  case sneSame => rw [exec_sneR_eq, if_neg (not_not_intro rfl)]

end Sys2Proof.Machine
end

section
/-! PROOFS. The plain loads (spec/41_alu.md R130 to R132) and the bitwise operations (R133 to R135): one register is
written, without a flag. -/

namespace Sys2Proof.Machine

/-- What `State.putReg` does, said once: `V[x]` reads as the byte, and the rest is the frame of one register. -/
theorem State.putReg_next (s : State) (x : Reg) (b : Byte) :
    ∃ t, s.putReg x b = .next t ∧ s.FrameRegs t [x] ∧ t.reg x = b := by
  refine ⟨(s.setReg x b).advance, rfl, ⟨rfl, fun r hr => ?_⟩, by simp⟩
  rw [State.reg_advance, State.reg_setReg_other s b (List.ne_of_not_mem_cons hr)]

/-- Settles O16: all three are a `State.putReg`, and the 8-bit sum is the sum modulo 256. -/
theorem literalAndRegisterLoads : Obligations.LiteralAndRegisterLoads := by
  intro s x y kk
  refine ⟨s.putReg_next x kk, ?addK, s.putReg_next x (s.reg y)⟩
  case addK =>
    obtain ⟨t, ht, hframe, hval⟩ := s.putReg_next x (s.reg x + kk)
    exact ⟨t, ht, hframe, hval ▸ BitVec.toNat_add _ _⟩

/-- Settles O17: all three are a `State.putReg`; on one register twice the operation is idempotent or cancels. -/
theorem bitwiseOperations : Obligations.BitwiseOperations := by
  intro s x y
  refine ⟨?or, ?and, ?xor⟩
  case or =>
    obtain ⟨t, ht, hframe, hval⟩ := s.putReg_next x (s.reg x ||| s.reg y)
    exact ⟨t, ht, hframe, fun hxy => by rw [hval, ← hxy, BitVec.or_self], fun k _ => hval ▸ BitVec.getLsbD_or⟩
  case and =>
    obtain ⟨t, ht, hframe, hval⟩ := s.putReg_next x (s.reg x &&& s.reg y)
    exact ⟨t, ht, hframe, fun hxy => by rw [hval, ← hxy, BitVec.and_self], fun k _ => hval ▸ BitVec.getLsbD_and⟩
  case xor =>
    obtain ⟨t, ht, hframe, hval⟩ := s.putReg_next x (s.reg x ^^^ s.reg y)
    exact ⟨t, ht, hframe, fun hxy => by rw [hval, ← hxy, BitVec.xor_self]; rfl, fun k _ => hval ▸ BitVec.getLsbD_xor⟩

end Sys2Proof.Machine
end

section
/-! PROOFS. The writes of the address register (spec/42_index_memory.md R160, R161): only `I` and `PC` change. -/

namespace Sys2Proof.Machine

/-- `I + zext_16(b)` modulo 65536 and not masked to 12 bits (R161). -/
theorem add_zextByte_toNat (w : Word) (b : Byte) : (w + zextByte b).toNat = (w.toNat + b.toNat) % 65536 := by
  simp only [zextByte, BitVec.toNat_add, BitVec.toNat_setWidth]
  omega

/-- Settles O22: both are a `State.setI`, then the advance; the literal fits 16 bits, the sum is taken modulo 65536. -/
theorem addressRegisterWrites : Obligations.AddressRegisterWrites :=
  fun s x nnn =>
    ⟨⟨(s.setI (zextAddr nnn)).advance, rfl, rfl, zextAddr_toNat nnn⟩,
      ⟨(s.setI (s.i + zextByte (s.reg x))).advance, rfl, rfl, add_zextByte_toNat s.i (s.reg x)⟩⟩

end Sys2Proof.Machine
end

section
/-! PROOFS. Clear screen (spec/43_display.md R180): only the display and `PC` change. -/

namespace Sys2Proof.Machine

/-- `CLS` blanks the display and advances (R180). -/
theorem exec_cls_eq (s : State) : exec .cls s = .next { s with disp := Display.blank, pc := s.pc + 2 } := rfl

/-- Settles O31: the display `CLS` leaves is `Display.blank`, every pixel of which is off. -/
theorem clearScreenTurnsEveryPixelOff : Obligations.ClearScreenTurnsEveryPixelOff :=
  fun s => ⟨_, exec_cls_eq s, rfl, fun px py _ _ => Display.pixel_blank px py⟩

end Sys2Proof.Machine
end

section
/-! PROOFS. The timer transfers and the wait for a key (spec/44_timers_keypad.md R202, R203, R205, R206). -/

namespace Sys2Proof.Machine

/-! ### The wait for a key -/

/-- A waiting machine answers `Ok` to a step and stays as it is (R203). -/
theorem perform_step_waiting {s : State} {r : Reg} (h : s.fault = none) (hw : s.status = .waitingForKey r) :
    perform .step s = (.ok, s) := by
  simp only [perform, State.hostStep, step_waiting h hw, stepResult, h]

/-- An operation that leaves a state as it is does so however often it is repeated. -/
theorem performAll_replicate_fixed {op : HostOp} {s : State} (h : (perform op s).2 = s) :
    ∀ n, performAll (List.replicate n op) s = s := by
  intro n
  induction n with
  | zero => rfl
  | succ n ih => rw [List.replicate_succ, performAll, h, ih]

/-- Settles O36: the instruction sets the status alone, and the state it leaves is a fixed point of `step`. -/
theorem waitForKeyHoldsThePc : Obligations.WaitForKeyHoldsThePc := by
  intro s x hs
  have hstep : perform .step { s with status := .waitingForKey x } = (.ok, { s with status := .waitingForKey x }) :=
    perform_step_waiting hs rfl
  exact ⟨_, rfl, rfl, hstep, performAll_replicate_fixed (congrArg Prod.snd hstep)⟩

/-! ### The timer transfers -/

/-- `LD Vx, DT` writes the delay timer to `V[x]` (R202). -/
theorem exec_ldVDt_eq (x : Reg) (s : State) : exec (.ldVDt x) s = s.putReg x s.dt := rfl

/-- `LD DT, Vx` writes `DT` and advances (R205). -/
theorem exec_ldDtV_eq (x : Reg) (s : State) : exec (.ldDtV x) s = .next { s with dt := s.reg x, pc := s.pc + 2 } := rfl

/-- `LD ST, Vx` writes `ST` and advances (R206). -/
theorem exec_ldStV_eq (x : Reg) (s : State) : exec (.ldStV x) s = .next { s with st := s.reg x, pc := s.pc + 2 } := rfl

/-- Settles O35: the read is a `State.putReg` of `DT`, in the last clause from the state the set leaves. -/
theorem timerTransfers : Obligations.TimerTransfers := by
  intro s x y
  refine ⟨s.putReg_next x s.dt, exec_ldDtV_eq x s, exec_ldStV_eq x s, ?setThenRead⟩
  case setThenRead =>
    obtain ⟨u, hu, -, hval⟩ := State.putReg_next { s with dt := s.reg x, pc := s.pc + 2 } y (s.reg x)
    exact ⟨_, u, exec_ldDtV_eq x s, (exec_ldVDt_eq y _).trans hu, hval⟩

end Sys2Proof.Machine
end

section
/-! PROOFS. The keypad write and the two observations of the host interface (spec/60_exceptions.md R234, R235, R236). -/

namespace Sys2Proof.Machine

/-- The key written has the state the host gave it (R235). -/
@[simp] theorem State.setKeyState_key_same (s : State) (k : Key) (down : Bool) :
    (s.setKeyState k down).key[k.val]? = some down :=
  Vector.getElem?_set_self k.isLt

/-- Every other key keeps its state (R235). -/
theorem State.setKeyState_key_other (s : State) (k : Key) (down : Bool) {j : Nat} (h : j ≠ k.val) :
    (s.setKeyState k down).key[j]? = s.key[j]? :=
  Vector.getElem?_set_ne k.isLt h.symm

/-- The sound output is on exactly while the sound timer exceeds 0 (R236). -/
theorem State.soundActive_iff (s : State) : s.soundActive = true ↔ 0 < s.st.toNat := decide_eq_true_iff

/-- Settles O40: the write is a `Vector.set` at the key, and both observations answer with the state they were given. -/
theorem keypadWriteAndObservations : Obligations.KeypadWriteAndObservations := by
  intro s k down
  refine ⟨?setKey, ?snapshot, ?sound⟩
  case setKey =>
    exact ⟨s.setKeyState k down, rfl, rfl, s.setKeyState_key_same k down, fun _ h => s.setKeyState_key_other k down h⟩
  case snapshot => exact ⟨s.disp, rfl, fun _ _ => rfl⟩
  case sound => exact ⟨s.soundActive, rfl, s.soundActive_iff⟩

end Sys2Proof.Machine
end

section
/-! PROOFS. The loader (spec/70_reset_and_hazards.md R263, R264): an image that fits is one block of stores at 0x200. -/

namespace Sys2Proof.Machine

/-- An image of at most 0xE00 bytes is stored at 0x200 and on (R263). -/
theorem perform_load_fits {s : State} {image : List Byte} (h : image.length ≤ 0xE00) :
    perform (.load (some image)) s = (.ok, { s with mem := s.mem.storeAll 0x200 image }) := by
  simp only [perform, State.load, if_neg (Nat.not_lt.mpr h)]

/-- A longer image is refused with its length before any byte is stored (R264). -/
theorem perform_load_tooLarge {s : State} {image : List Byte} (h : 0xE00 < image.length) :
    perform (.load (some image)) s = (.loadError (.loadTooLarge image.length), s) := by
  simp only [perform, State.load, if_pos h]

/-- Settles O42: an image that fits ends by 0x1000, so its block of stores reads back in the canonical memory. -/
theorem loadPlacesTheImage : Obligations.LoadPlacesTheImage := by
  intro s image hwf
  refine ⟨fun hfits => ⟨_, perform_load_fits hfits, rfl, ?placed, ?others⟩, perform_load_tooLarge⟩
  case placed => exact Memory.byteAt_storeAll image (Nat.add_le_add_left hfits 0x200) hwf
  case others => exact fun a ha => Memory.byteAt_storeAll_other image ha

end Sys2Proof.Machine
end

section
/-! PROOFS. Encoding and decoding (spec/30_encoding.md): each inverts the other, and the words without an instruction
are the five classes of R95. -/

namespace Sys2Proof

/-! ### Decoding an encoded instruction -/

/-- Decoding the word of an instruction reads back its group, its function and its operands. -/
theorem decode_encode {i : Instr} (h : i.wf = true) : decode (encode i) = .ok i := by
  cases i with
  | cls | ret => rfl
  | drw x y n =>
    have hn : n % 16 = n := Nat.mod_eq_of_lt (Nat.lt_succ_of_le (of_decide_eq_true h))
    simp [decode, encode, group_wordXYN, fieldX_wordXYN, fieldY_wordXYN, fieldN_wordXYN, hn]
  | jp | call | ldI | jpV0 => simp [decode, encode, group_wordNNN, fieldNNN_wordNNN]
  | seK | sneK | ldK | addK | rnd => simp [decode, encode, group_wordXKK, fieldX_wordXKK, fieldKK_wordXKK]
  | skp | sknp => simp [decode, decodeGroupE, encode, group_wordXKK, fieldX_wordXKK, fieldKK_wordXKK]
  | ldVDt | ldVK | ldDtV | ldStV | addI | ldF | ldB | stBlock | ldBlock =>
    simp [decode, decodeGroupF, encode, group_wordXKK, fieldX_wordXKK, fieldKK_wordXKK]
  | seR | sneR => simp [decode, encode, group_wordXYN, fieldX_wordXYN, fieldY_wordXYN, fieldN_wordXYN]
  | ldR | orR | andR | xorR | addR | sub | shr | subn | shl =>
    simp [decode, decodeGroup8, encode, group_wordXYN, fieldX_wordXYN, fieldY_wordXYN, fieldN_wordXYN]

/-- Decoding bytes is decoding their big-endian word and keeping the rest (R80, R81). -/
theorem decodeBytes_wordBytes {w : Word} {i : Instr} (h : decode w = .ok i) (rest : List Byte) :
    decodeBytes (wordBytes w ++ rest) = .ok (i, rest) := by
  simp only [wordBytes, List.cons_append, List.nil_append, decodeBytes, bigEndian_wordBytes, h]

/-- Settles O1: by `decode_encode`, and the two bytes of a word read back as the word. -/
theorem decodeInvertsEncode : Obligations.DecodeInvertsEncode :=
  fun _ rest h => ⟨decode_encode h, decodeBytes_wordBytes (decode_encode h) rest⟩

/-! ### Encoding a decoded word -/

theorem fieldN_lt (w : Word) : fieldN w < 16 := nibble_lt w 0

/-- The word of an instruction in group 0 (R86). -/
theorem encode_decodeGroup0 {w : Word} {i : Instr} (h : decodeGroup0 w = .ok i) : encode i = w ∧ i.wf = true := by
  unfold decodeGroup0 at h
  split at h
  · next hw => cases h; exact ⟨hw.symm, rfl⟩
  · split at h
    · next hw => cases h; exact ⟨hw.symm, rfl⟩
    · cases h

/-- The word of an instruction in group 8, whose function is the low nibble (R86). -/
theorem encode_decodeGroup8 {w : Word} {i : Instr} (hg : nibble w 12 = 8) (h : decodeGroup8 w = .ok i) :
    encode i = w ∧ i.wf = true := by
  unfold decodeGroup8 at h
  split at h <;> cases h
  all_goals exact ⟨wordXYN_fields w _ _ hg ‹_›, rfl⟩

/-- The word of an instruction in group E, whose function is the low byte (R86). -/
theorem encode_decodeGroupE {w : Word} {i : Instr} (hg : nibble w 12 = 14) (h : decodeGroupE w = .ok i) :
    encode i = w ∧ i.wf = true := by
  unfold decodeGroupE at h
  split at h <;> cases h
  all_goals exact ⟨wordXKK_fields w _ _ hg ‹_›, rfl⟩

/-- The word of an instruction in group F, whose function is the low byte (R86). -/
theorem encode_decodeGroupF {w : Word} {i : Instr} (hg : nibble w 12 = 15) (h : decodeGroupF w = .ok i) :
    encode i = w ∧ i.wf = true := by
  unfold decodeGroupF at h
  split at h <;> cases h
  all_goals exact ⟨wordXKK_fields w _ _ hg ‹_›, rfl⟩

/-- Settles O2: each arm of `decode` answers the instruction whose fields are those of the word, and a word is rebuilt
from its fields. -/
theorem encodeInvertsDecode : Obligations.EncodeInvertsDecode := by
  intro w i h
  unfold decode at h
  split at h
  case h_1 => exact encode_decodeGroup0 h
  case h_9 => exact encode_decodeGroup8 ‹_› h
  case h_15 => exact encode_decodeGroupE ‹_› h
  case h_16 =>
    have hlt := nibble_lt w 12
    simp only [imp_false] at *
    exact encode_decodeGroupF (by omega) h
  case h_6 | h_10 =>
    split at h <;> cases h
    exact ⟨wordXYN_fields w _ 0 ‹_› ‹_›, rfl⟩
  case h_14 =>
    cases h
    have hn := fieldN_lt w
    exact ⟨wordXYN_fields w _ _ ‹_› (Nat.mod_eq_of_lt hn).symm, decide_eq_true (Nat.le_of_lt_succ hn)⟩
  case h_2 | h_3 | h_11 | h_12 => cases h; exact ⟨wordNNN_fields w _ ‹_›, rfl⟩
  all_goals cases h; exact ⟨wordXKK_fields w _ _ ‹_› rfl, rfl⟩

/-! ### The words without an instruction -/

/-- The five classes of unknown words of R95, by the fields the decoder reads. -/
def UnknownWord (w : Word) : Prop :=
  (nibble w 12 = 0x0 ∧ w ≠ 0x00E0#16 ∧ w ≠ 0x00EE#16) ∨
  ((nibble w 12 = 0x5 ∨ nibble w 12 = 0x9) ∧ fieldN w ≠ 0) ∨
  (nibble w 12 = 0x8 ∧ fieldN w ∈ [0x8, 0x9, 0xA, 0xB, 0xC, 0xD, 0xF]) ∨
  (nibble w 12 = 0xE ∧ (fieldKK w).toNat ≠ 0x9E ∧ (fieldKK w).toNat ≠ 0xA1) ∨
  (nibble w 12 = 0xF ∧ (fieldKK w).toNat ∉ [0x07, 0x0A, 0x15, 0x18, 0x1E, 0x29, 0x33, 0x55, 0x65])

theorem decodeGroup0_ok_iff (w : Word) :
    (∃ i, decodeGroup0 w = .ok i) ↔ ¬ (w ≠ 0x00E0#16 ∧ w ≠ 0x00EE#16) := by
  unfold decodeGroup0
  split
  · next h => simp [h]
  · next h0 => split <;> simp [*]

theorem decodeGroup8_ok_iff (w : Word) :
    (∃ i, decodeGroup8 w = .ok i) ↔ fieldN w ∉ [0x8, 0x9, 0xA, 0xB, 0xC, 0xD, 0xF] := by
  unfold decodeGroup8
  split
  case h_10 =>
    have hlt := fieldN_lt w
    simp only [imp_false, List.mem_cons, List.not_mem_nil, reduceCtorEq, exists_false, false_iff] at *
    omega
  all_goals simp [*]

theorem decodeGroupE_ok_iff (w : Word) :
    (∃ i, decodeGroupE w = .ok i) ↔ ¬ ((fieldKK w).toNat ≠ 0x9E ∧ (fieldKK w).toNat ≠ 0xA1) := by
  unfold decodeGroupE
  split <;> simp_all

theorem decodeGroupF_ok_iff (w : Word) :
    (∃ i, decodeGroupF w = .ok i) ↔
      ¬ (fieldKK w).toNat ∉ [0x07, 0x0A, 0x15, 0x18, 0x1E, 0x29, 0x33, 0x55, 0x65] := by
  unfold decodeGroupF
  split <;> simp_all

/-- A word decodes exactly when it is in none of the five classes. -/
theorem decode_ok_iff (w : Word) : (∃ i, decode w = .ok i) ↔ ¬ UnknownWord w := by
  unfold decode UnknownWord
  split
  case h_1 hg => simp [hg, decodeGroup0_ok_iff]
  case h_9 hg => simp [hg, decodeGroup8_ok_iff]
  case h_15 hg => simp [hg, decodeGroupE_ok_iff]
  case h_16 =>
    have hlt := nibble_lt w 12
    simp only [imp_false] at *
    have hg : nibble w 12 = 15 := by omega
    simp [hg, decodeGroupF_ok_iff]
  case h_6 hg | h_10 hg => split <;> simp [*]
  all_goals simp [*]

/-- A word in one of the five classes decodes as itself, unknown. -/
theorem decode_of_unknownWord {w : Word} (h : UnknownWord w) : decode w = .error (.unknown w) := by
  cases hd : decode w with
  | ok i => exact absurd h ((decode_ok_iff w).1 ⟨i, hd⟩)
  | error e => rw [Machine.decode_error hd]

/-- The five classes as R95 lists them, by the number of the word. -/
theorem unknownWord_iff_toNat (w : Word) : UnknownWord w ↔
    (w.toNat / 4096 = 0x0 ∧ w.toNat ≠ 0x00E0 ∧ w.toNat ≠ 0x00EE) ∨
    ((w.toNat / 4096 = 0x5 ∨ w.toNat / 4096 = 0x9) ∧ w.toNat % 16 ≠ 0) ∨
    (w.toNat / 4096 = 0x8 ∧ w.toNat % 16 ∈ [0x8, 0x9, 0xA, 0xB, 0xC, 0xD, 0xF]) ∨
    (w.toNat / 4096 = 0xE ∧ w.toNat % 256 ≠ 0x9E ∧ w.toNat % 256 ≠ 0xA1) ∨
    (w.toNat / 4096 = 0xF ∧ w.toNat % 256 ∉ [0x07, 0x0A, 0x15, 0x18, 0x1E, 0x29, 0x33, 0x55, 0x65]) := by
  have hlt := w.isLt
  have hgroup : nibble w 12 = w.toNat / 4096 := by rw [nibble_eq]; omega
  have hlow : fieldN w = w.toNat % 16 := by rw [fieldN, nibble_eq]; omega
  simp only [UnknownWord, hgroup, hlow, fieldKK_toNat, ne_eq, ← BitVec.toNat_inj, BitVec.toNat_ofNat]

/-- Settles O3: by `decode_ok_iff`; the step that fetches an unknown word raises the error. -/
theorem unknownWordsAreTheFiveClasses : Obligations.UnknownWordsAreTheFiveClasses := by
  intro w group low byte unknown
  have hu : UnknownWord w ↔ unknown := unknownWord_iff_toNat w
  refine ⟨fun h => ⟨decode_of_unknownWord (hu.2 h), fun s hf hr hw => ?_⟩, fun h => (decode_ok_iff w).2 (mt hu.1 h)⟩
  rw [Machine.step_running hf hr, hw]
  simp only [decode_of_unknownWord (hu.2 h)]
  rfl

/-- Settles O4: the decoder runs on each of the listed words. -/
theorem listedWordsDecodeAsTabled : Obligations.ListedWordsDecodeAsTabled := by
  unfold Obligations.ListedWordsDecodeAsTabled
  decide

end Sys2Proof
end

section
/-! PROOFS. What an instruction does, said once: the error it raises, if any, and the state it leaves otherwise
(spec/60_exceptions.md R221, R222, R226). -/

namespace Sys2Proof.Machine

/-! ### The error an instruction raises -/

/-- The error of `n` reads from `I` on: the lowest address outside memory (R66, R226). -/
def State.readError (s : State) (n : Nat) : Option Fault :=
  if 0 < n ∧ 0x1000 < s.base + n then some (.outOfBoundsAccess (max s.base 0x1000) s.pc) else none

/-- The error of `n` writes from `I` on, `n` not 0: the glyph region is checked at the first address (R65, R67). -/
def State.writeError (s : State) (n : Nat) : Option Fault :=
  if s.base ≤ 0x04F then some (.romWrite s.base s.pc) else s.readError n

/-- The error of a key skip (R200, R201). -/
def State.keyError (s : State) (x : Reg) : Option Fault :=
  if 15 < (s.reg x).toNat then some (.keyIndexOutOfRange (s.reg x) s.pc) else none

/-- The error an instruction raises in `s` (R221). -/
def State.error? (s : State) : Instr → Option Fault
  | .ret => if s.depth.val = 0 then some (.stackUnderflow s.pc) else none
  | .call _ => if s.depth.val = 16 then some (.stackOverflow s.pc) else none
  | .drw _ _ n => s.readError n
  | .skp x | .sknp x => s.keyError x
  | .ldB _ => s.writeError 3
  | .stBlock x => s.writeError (x.val + 1)
  | .ldBlock x => s.readError (x.val + 1)
  | _ => none

/-! ### The state it leaves without one -/

/-- The `n` bytes from `I` on. -/
def State.bytesAtI (s : State) (n : Nat) : List Byte := (List.range n).map fun k => s.mem.byteAt (s.base + k)

/-- The state of a next outcome. -/
def State.nextOr (s : State) : Host.Outcome State Fault Refusal → State
  | .next t => t
  | _ => s

/-- Registers `v` with `V[0]` to `V[x]` loaded from the addresses `a` on (R165). Irreducible: what it holds is read by
`getElem_regsLoaded` only. -/
@[irreducible] def regsLoaded (v : Vector Byte 16) (m : Memory) (a : Nat) (x : Reg) : Vector Byte 16 :=
  Vector.ofFn fun r : Reg => if r ≤ x then m.byteAt (a + r.val) else v[r.val]

theorem getElem_regsLoaded (v : Vector Byte 16) (m : Memory) (a : Nat) (x : Reg) {r : Nat} (hr : r < 16) :
    (regsLoaded v m a x)[r] = if r ≤ x.val then m.byteAt (a + r) else v[r] := by
  unfold regsLoaded
  rw [Vector.getElem_ofFn]
  rfl

/-- The state an instruction leaves when it raises no error: in closed form for those that can raise one and for the
skips, and otherwise the state `exec` answers in any case. -/
def State.result (s : State) : Instr → State
  | .ret => { s with pc := s.stack[s.depth.val - 1], depth := ⟨s.depth.val - 1, by omega⟩ }
  | .call nnn =>
    { s with
      pc := zextAddr nnn
      depth := ⟨min (s.depth.val + 1) 16, by omega⟩
      stack := s.stack.setIfInBounds s.depth.val (s.pc + 2) }
  | .seK x kk => { s with pc := s.pc + if s.reg x = kk then 4 else 2 }
  | .sneK x kk => { s with pc := s.pc + if s.reg x ≠ kk then 4 else 2 }
  | .seR x y => { s with pc := s.pc + if s.reg x = s.reg y then 4 else 2 }
  | .sneR x y => { s with pc := s.pc + if s.reg x ≠ s.reg y then 4 else 2 }
  | .skp x => { s with pc := s.pc + if s.key[(s.reg x).toNat]? = some true then 4 else 2 }
  | .sknp x => { s with pc := s.pc + if s.key[(s.reg x).toNat]? = some false then 4 else 2 }
  | .drw x y n => (s.blit x y (s.bytesAtI n)).advance
  | .ldB x => { s with mem := s.mem.storeAll s.base (bcdDigits (s.reg x)), pc := s.pc + 2 }
  | .stBlock x =>
    { s with mem := s.mem.storeAll s.base (s.regBlock x), i := s.advancedI x, pc := s.pc + 2 }
  | .ldBlock x => { s with v := regsLoaded s.v s.mem s.base x, i := s.advancedI x, pc := s.pc + 2 }
  | i => s.nextOr (exec i s)

/-! ### The fallible operations in closed form -/

/-- A fallible body in closed form completes in closed form. -/
theorem State.complete_elim {α : Type} (s : State) (o : Option Fault) (a : α) (f : α → State) :
    s.complete ((o.elim (.ok a) .error : Except Fault α).map f) = .next (o.elim (f a) s.recordFault) := by
  cases o <;> rfl

theorem State.pop_eq_elim (s : State) :
    s.pop = (s.error? .ret).elim
      (.ok (s.stack[s.depth.val - 1], { s with depth := ⟨s.depth.val - 1, by omega⟩ })) .error := by
  obtain ⟨h, hp⟩ | ⟨h, hp⟩ := s.pop_eq
  · rw [hp, State.error?, if_neg (by omega)]; rfl
  · rw [hp, State.error?, if_pos h]; rfl

theorem State.push_eq_elim (s : State) (nnn : Addr12) (w : Word) :
    s.push w = (s.error? (.call nnn)).elim
      (.ok { s with
        depth := ⟨min (s.depth.val + 1) 16, by omega⟩
        stack := s.stack.setIfInBounds s.depth.val w }) .error := by
  obtain ⟨h, hp⟩ | ⟨h, hp⟩ := s.push_eq w
  · have hd : min (s.depth.val + 1) 16 = s.depth.val + 1 := by omega
    have hs : s.stack.setIfInBounds s.depth.val w = s.stack.set s.depth.val w := by
      apply Vector.ext
      intro k hk
      rw [Vector.getElem_setIfInBounds, Vector.getElem_set]
    rw [hp, State.error?, if_neg (by omega)]
    simp only [hd, hs, Option.elim_none]
  · rw [hp, State.error?, if_pos h]; rfl

theorem State.readBlock_eq_elim (s : State) (n : Nat) :
    s.readBlock s.base n = (s.readError n).elim (.ok (s.bytesAtI n)) .error := by
  unfold State.readError
  split
  · next h => exact State.readBlock_error h.1 h.2
  · next h => exact State.readBlock_ok (by omega)

theorem State.writeBlock_eq_elim (s : State) {bs : List Byte} (h0 : bs ≠ []) :
    s.writeBlock s.base bs =
      (s.writeError bs.length).elim (.ok { s with mem := s.mem.storeAll s.base bs }) .error := by
  have hlen : 0 < bs.length := List.length_pos_of_ne_nil h0
  unfold State.writeError State.readError
  split
  · next h => exact State.writeBlock_rom h0 h
  · split
    · next h => exact State.writeBlock_outOfBounds bs h0 (by omega) h.2
    · exact State.writeBlock_ok bs (by omega) (by omega)

@[simp] theorem State.length_regBlock (s : State) (x : Reg) : (s.regBlock x).length = x.val + 1 := by
  have := x.isLt
  simp only [State.regBlock, List.length_take, Vector.length_toList]
  omega

theorem State.regBlock_ne_nil (s : State) (x : Reg) : s.regBlock x ≠ [] :=
  List.ne_nil_of_length_pos (by simp)

@[simp] theorem State.length_bytesAtI (s : State) (n : Nat) : (s.bytesAtI n).length = n := by simp [State.bytesAtI]

/-- Loading the `x + 1` bytes from `I` on writes `V[0]` to `V[x]` and leaves the registers above (R165). -/
theorem State.loadRegs_bytesAtI (s : State) (x : Reg) :
    s.loadRegs 0 (s.bytesAtI (x.val + 1)) = { s with v := regsLoaded s.v s.mem s.base x } := by
  rw [State.loadRegs_frame]
  congr 1
  apply Vector.ext
  intro r hr
  have hx := x.isLt
  have hfit : 0 + (s.bytesAtI (x.val + 1)).length ≤ 16 := by rw [State.length_bytesAtI]; omega
  refine (State.reg_loadRegs _ s 0 hfit ⟨r, hr⟩).trans ?_
  simp only [getElem_regsLoaded, State.length_bytesAtI, Nat.zero_le, true_and, Nat.zero_add, Nat.lt_succ_iff]
  split
  · simp [State.bytesAtI]
  · rfl

theorem State.skipOnKey_eq (s : State) (x : Reg) (wanted : Bool) :
    s.skipOnKey x wanted = .next ((s.keyError x).elim
      { s with pc := s.pc + if s.key[(s.reg x).toNat]? = some wanted then 4 else 2 } s.recordFault) := by
  unfold State.skipOnKey State.keyError State.keyDown?
  by_cases h : (s.reg x).toNat < 16
  · rw [if_neg (by omega), Vector.getElem?_eq_getElem h]
    exact congrArg _ (s.skipIf_eq (by simp))
  · rw [if_pos (by omega), Vector.getElem?_eq_none (by omega)]
    rfl

/-! ### Everything an instruction can do -/

/-- Every instruction answers a next state: the error recorded on `s`, or its result. -/
theorem exec_eq (i : Instr) (s : State) : exec i s = .next ((s.error? i).elim (s.result i) s.recordFault) := by
  cases i with
  | ret => rw [exec_ret_eq, State.pop_eq_elim, State.complete_elim]; rfl
  | call nnn => rw [exec_call_eq, State.push_eq_elim s nnn, State.complete_elim]; rfl
  | drw x y n => rw [exec_drw_eq, State.readBlock_eq_elim, State.complete_elim]; rfl
  | ldB x =>
    have hdigits : bcdDigits (s.reg x) ≠ [] := List.cons_ne_nil _ _
    rw [exec_ldB_eq, State.writeBlock_eq_elim s hdigits, State.complete_elim]
    rfl
  | stBlock x =>
    rw [exec_stBlock_eq, State.writeBlock_eq_elim s (s.regBlock_ne_nil x), State.complete_elim, State.length_regBlock]
    rfl
  | ldBlock x =>
    rw [exec_ldBlock_eq, State.readBlock_eq_elim, State.complete_elim, State.loadRegs_bytesAtI]
    rfl
  | skp x => exact s.skipOnKey_eq x true
  | sknp x => exact s.skipOnKey_eq x false
  | seK | seR => exact congrArg _ (s.skipIf_eq beq_iff_eq)
  | sneK | sneR => exact congrArg _ (s.skipIf_eq bne_iff_ne)
  | _ => rfl

theorem exec_of_error {i : Instr} {s : State} {e : Fault} (h : s.error? i = some e) :
    exec i s = .next (s.recordFault e) := by
  rw [exec_eq, h]; rfl

theorem exec_of_no_error {i : Instr} {s : State} (h : s.error? i = none) : exec i s = .next (s.result i) := by
  rw [exec_eq, h]; rfl

/-- Everything an instruction can have done, its error or its result known. -/
theorem exec_cases {i : Instr} {s t : State} (h : exec i s = .next t) :
    (∃ e, s.error? i = some e ∧ t = s.recordFault e) ∨ (s.error? i = none ∧ t = s.result i) := by
  cases he : s.error? i with
  | none => rw [exec_of_no_error he] at h; cases h; exact .inr ⟨rfl, rfl⟩
  | some e => rw [exec_of_error he] at h; cases h; exact .inl ⟨e, rfl, rfl⟩

/-- The result of an instruction has the fault record of the state before. -/
@[simp] theorem State.result_fault (s : State) (i : Instr) : (s.result i).fault = s.fault := by
  cases i <;> rfl

end Sys2Proof.Machine
end

section
/-! PROOFS. The step: what it checks before it executes, what it runs, and how it errs (spec/30_encoding.md R80, R89;
spec/60_exceptions.md R222, R225). -/

namespace Sys2Proof.Machine

/-! ### The errors, by the operation that raises them -/

theorem State.readError_eq_some {s : State} {n : Nat} {e : Fault} (h : s.readError n = some e) :
    0x1000 < s.base + n ∧ e = .outOfBoundsAccess (max s.base 0x1000) s.pc := by
  obtain ⟨hbound, he⟩ := Option.ite_none_right_eq_some.mp h
  exact ⟨hbound.2, (Option.some.inj he).symm⟩

theorem State.writeError_eq_some {s : State} {n : Nat} {e : Fault} (h : s.writeError n = some e) :
    (s.base ≤ 0x04F ∧ e = .romWrite s.base s.pc) ∨
      (0x1000 < s.base + n ∧ e = .outOfBoundsAccess (max s.base 0x1000) s.pc) := by
  unfold State.writeError at h
  split at h
  · next hrom => exact .inl ⟨hrom, (Option.some.inj h).symm⟩
  · exact .inr (State.readError_eq_some h)

theorem State.keyError_eq_some {s : State} {x : Reg} {e : Fault} (h : s.keyError x = some e) :
    15 < (s.reg x).toNat ∧ e = .keyIndexOutOfRange (s.reg x) s.pc := by
  obtain ⟨hkey, he⟩ := Option.ite_none_right_eq_some.mp h
  exact ⟨hkey, (Option.some.inj he).symm⟩

/-- Every error an instruction raises carries its `PC` and names its cause (R221, R226); the lowest address outside
memory is `I` itself or 0x1000, so it exceeds 0xFFF. -/
theorem State.error?_namesItsCause {s : State} {i : Instr} {e : Fault} (h : s.error? i = some e) :
    e.pc = s.pc ∧ e.NamesItsCause s := by
  have hread : ∀ {n}, s.readError n = some e → e.pc = s.pc ∧ e.NamesItsCause s := by
    intro n h
    obtain ⟨-, rfl⟩ := State.readError_eq_some h
    exact ⟨rfl, rfl, by omega, .inr rfl⟩
  have hwrite : ∀ {n}, s.writeError n = some e → e.pc = s.pc ∧ e.NamesItsCause s := by
    intro n h
    obtain ⟨hrom, rfl⟩ | ⟨-, rfl⟩ := State.writeError_eq_some h
    · exact ⟨rfl, rfl, rfl, hrom⟩
    · exact ⟨rfl, rfl, by omega, .inr rfl⟩
  have hkey : ∀ {x}, s.keyError x = some e → e.pc = s.pc ∧ e.NamesItsCause s := by
    intro x h
    obtain ⟨hlarge, rfl⟩ := State.keyError_eq_some h
    exact ⟨rfl, rfl, hlarge, x, rfl⟩
  cases i with
  | ret | call =>
    obtain ⟨hdepth, he⟩ := Option.ite_none_right_eq_some.mp h
    cases he
    exact ⟨rfl, rfl, hdepth⟩
  | drw | ldBlock => exact hread h
  | ldB | stBlock => exact hwrite h
  | skp | sknp => exact hkey h
  | _ => cases h

/-! ### What a step runs -/

/-- A step runs the instruction its fetched word decodes to (R89). -/
theorem step_decoded {s : State} {w : Word} {i : Instr} (hf : s.fault = none) (hr : s.status = .running)
    (hw : s.fetch = .ok w) (hd : decode w = .ok i) : step s = exec i s := by
  rw [step_running hf hr, hw]
  simp only [hd]

/-- A step whose fetch raises an error records it (R225). -/
theorem step_fetch_error {s : State} (hf : s.fault = none) (hr : s.status = .running) (hpc : 0xFFE < s.pc.toNat) :
    step s = .next (s.recordFault (.outOfBoundsAccess (max s.pc.toNat 0x1000) s.pc)) := by
  rw [step_running hf hr, State.fetch_error hpc]
  rfl

/-- The fetched word, as a number: the first byte high (R70, R80). -/
theorem State.fetch_eq_of_toNat {s : State} {w : Word} (hpc : s.pc.toNat ≤ 0xFFE)
    (hw : w.toNat = (s.mem.byteAt s.pc.toNat).toNat * 256 + (s.mem.byteAt (s.pc.toNat + 1)).toNat) :
    s.fetch = .ok w := by
  rw [State.fetch_ok hpc]
  exact congrArg _ (BitVec.eq_of_toNat_eq ((bigEndian_toNat _ _).trans hw.symm))

/-- Settles O5: the fetched word is the one given, and `step` runs what it decodes to. -/
theorem stepRunsTheDecodedInstruction : Obligations.StepRunsTheDecodedInstruction :=
  fun _ _ _ hf hr hpc hw hd => step_decoded hf hr (State.fetch_eq_of_toNat hpc hw) hd

/-- Settles O6: the checks in the order `step` makes them; at 0xFFF the lowest address outside memory is 0x1000. -/
theorem stepChecksInOrder : Obligations.StepChecksInOrder := by
  intro s
  refine ⟨fun _ => step_recorded, fun _ => step_waiting, fun hf hr hpc => ?_, fun hf hr hpc => ?_⟩
  · rw [step_fetch_error hf hr (by omega), hpc]; rfl
  · have hmax : max s.pc.toNat 0x1000 = s.pc.toNat := by omega
    rw [step_fetch_error hf hr (by omega), hmax]; rfl

/-- Settles O7: `exec` answers by `exec_eq`, and each branch of `step` raises, waits or executes. -/
theorem everyInstructionAnswersNext : Obligations.EveryInstructionAnswersNext := by
  refine ⟨fun i s => ⟨_, exec_eq i s⟩, fun s hf => ?_⟩
  cases hs : s.status with
  | waitingForKey r => exact ⟨s, step_waiting hf hs⟩
  | running =>
    rw [step_running hf hs]
    split
    · exact ⟨_, rfl⟩
    · split
      · exact ⟨_, rfl⟩
      · exact ⟨_, exec_eq _ s⟩

/-- Settles O8: a step without an error records none, and one with an error is the old state with its record. -/
theorem stepErrorDiscardsTheStep : Obligations.StepErrorDiscardsTheStep := by
  intro s t h
  obtain ⟨hf, ⟨r, -, rfl⟩ | ⟨-, ⟨-, rfl⟩ | ⟨w, -, -, rfl⟩ | ⟨w, i, -, -, -, hx⟩⟩⟩ := step_cases h
  · exact .inl hf
  · exact .inr ⟨_, rfl, rfl⟩
  · exact .inr ⟨_, rfl, rfl⟩
  · obtain ⟨e, he, rfl⟩ | ⟨-, rfl⟩ := exec_cases hx
    · exact .inr ⟨e, rfl, (State.error?_namesItsCause he).1⟩
    · exact .inl ((s.result_fault i).trans hf)

end Sys2Proof.Machine
end

section
/-! PROOFS. What an instruction and a host operation leave unchanged (spec/10_state.md sections 1 to 6, the table of
R23; spec/42_index_memory.md, addressing summary), and what no program can observe. -/

namespace Sys2Proof.Machine

/-! ### The frame of an instruction -/

/-- What instruction `i`, begun in `s`, leaves unchanged in the state `t` it answers. -/
structure Frame (i : Instr) (s t : State) : Prop where
  mem : (∀ x, i ≠ .ldB x) → (∀ x, i ≠ .stBlock x) → t.mem = s.mem
  reg : ∀ r, i.writesReg r = false → t.reg r = s.reg r
  index : i.writesI = false → t.i = s.i
  callStack : i ≠ .ret → (∀ nnn, i ≠ .call nnn) → t.depth = s.depth ∧ t.stack = s.stack
  dt : (∀ x, i ≠ .ldDtV x) → t.dt = s.dt
  st : (∀ x, i ≠ .ldStV x) → t.st = s.st
  disp : i ≠ .cls → (∀ x y n, i ≠ .drw x y n) → t.disp = s.disp
  key : t.key = s.key
  status : (∀ x, i ≠ .ldVK x) → t.status = s.status
  draws : (∀ x kk, i ≠ .rnd x kk) → t.draws = s.draws

/-- A register block load keeps the registers above `x` (R165). -/
theorem State.reg_ldBlock_result (s : State) (x r : Reg) :
    (s.result (.ldBlock x)).reg r = if r ≤ x then s.mem.byteAt (s.base + r.val) else s.reg r :=
  getElem_regsLoaded _ _ _ _ r.isLt

/-- A register not written by the table of R23 is left by the result of an instruction. -/
theorem State.reg_result {s : State} {i : Instr} {r : Reg} (h : i.writesReg r = false) :
    (s.result i).reg r = s.reg r := by
  cases i with
  | ldK x | addK x | ldR x | orR x | andR x | xorR x | rnd x | ldVDt x =>
    exact State.reg_setReg_other _ _ (of_decide_eq_false h)
  | addR x | sub x | subn x | shr x | shl x =>
    obtain ⟨hx, hflag⟩ := not_or.mp (of_decide_eq_false ((Bool.decide_or ..).trans h))
    exact (State.reg_setReg_other _ _ hx).trans (State.reg_setReg_other _ _ hflag)
  | drw => exact State.reg_setReg_other _ _ (of_decide_eq_false h)
  | ldBlock x => rw [State.reg_ldBlock_result, if_neg (of_decide_eq_false h)]
  | _ => rfl

theorem frame_result (i : Instr) (s : State) : Frame i s (s.result i) where
  mem hB hSt := by
    cases i with
    | ldB x => exact absurd rfl (hB x)
    | stBlock x => exact absurd rfl (hSt x)
    | _ => rfl
  reg _ := State.reg_result
  index h := by
    cases i with
    | ldI | addI | ldF | stBlock | ldBlock => cases h
    | _ => rfl
  callStack hRet hCall := by
    cases i with
    | ret => exact absurd rfl hRet
    | call nnn => exact absurd rfl (hCall nnn)
    | _ => exact ⟨rfl, rfl⟩
  dt h := by
    cases i with
    | ldDtV x => exact absurd rfl (h x)
    | _ => rfl
  st h := by
    cases i with
    | ldStV x => exact absurd rfl (h x)
    | _ => rfl
  disp hCls hDrw := by
    cases i with
    | cls => exact absurd rfl hCls
    | drw x y n => exact absurd rfl (hDrw x y n)
    | _ => rfl
  key := by cases i <;> rfl
  status h := by
    cases i with
    | ldVK x => exact absurd rfl (h x)
    | _ => rfl
  draws h := by
    cases i with
    | rnd x kk => exact absurd rfl (h x kk)
    | _ => rfl

/-- A recorded fault changes nothing a frame speaks of. -/
theorem frame_recordFault (i : Instr) (s : State) (e : Fault) : Frame i s (s.recordFault e) where
  mem _ _ := rfl
  reg _ _ := rfl
  index _ := rfl
  callStack _ _ := ⟨rfl, rfl⟩
  dt _ := rfl
  st _ := rfl
  disp _ _ := rfl
  key := rfl
  status _ := rfl
  draws _ := rfl

/-- Every instruction keeps its frame, whether it raises an error or not. -/
theorem exec_frame {i : Instr} {s t : State} (h : exec i s = .next t) : Frame i s t := by
  obtain ⟨e, -, rfl⟩ | ⟨-, rfl⟩ := exec_cases h
  · exact frame_recordFault i s e
  · exact frame_result i s

/-! ### The rules of the whole machine -/

/-- Settles O45: the memory of `exec_frame`, read at each address. -/
theorem onlyStoresChangeMemory : Obligations.OnlyStoresChangeMemory :=
  fun _ _ _ hB hSt h a => congrArg (Memory.byteAt · a) ((exec_frame h).mem hB hSt)

/-- Settles O49: the registers of `exec_frame`. -/
theorem registersAreWrittenAsTabled : Obligations.RegistersAreWrittenAsTabled :=
  fun _ _ _ r h hr => (exec_frame h).reg r hr

/-- Settles O50: the other fields of `exec_frame`. -/
theorem otherStateIsWrittenAsStated : Obligations.OtherStateIsWrittenAsStated :=
  fun _ _ _ h =>
    have hframe := exec_frame h
    ⟨hframe.index, hframe.callStack, hframe.status, hframe.draws⟩

/-! ### The frame of a host operation -/

theorem State.deliverKeyPress_running {s : State} (k : Key) (h : s.status = .running) : s.deliverKeyPress k = s := by
  unfold State.deliverKeyPress
  rw [h]

theorem State.deliverKeyPress_waiting {s : State} {r : Reg} (k : Key) (h : s.status = .waitingForKey r) :
    s.deliverKeyPress k = { s.setReg r (BitVec.ofNat 8 k.val) with pc := s.pc + 2, status := .running } := by
  unfold State.deliverKeyPress
  rw [h]
  rfl

/-- A load changes nothing but memory, from 0x200 on, and so leaves the glyph region (R263). -/
theorem perform_load_frame (s : State) (image : Option (List Byte)) :
    ∃ m : Memory, (perform (.load image) s).2 = { s with mem := m } ∧
      (∀ a ≤ 0x04F, m.byteAt a = s.mem.byteAt a) ∧ (Memory.wf s.mem = true → Memory.wf m = true) := by
  cases image with
  | none => exact ⟨s.mem, rfl, fun _ _ => rfl, id⟩
  | some image =>
    by_cases h : image.length ≤ 0xE00
    · rw [perform_load_fits h]
      exact ⟨_, rfl, fun a ha => Memory.byteAt_storeAll_other image (.inl (by omega)),
        Memory.storeAll_wf image (by omega)⟩
    · rw [perform_load_tooLarge (by omega)]
      exact ⟨s.mem, rfl, fun _ _ => rfl, id⟩

/-- A delivered key changes only registers, `PC` and the status (R204). -/
theorem State.deliverKeyPress_frame (s : State) (k : Key) :
    s.deliverKeyPress k =
      { s with v := (s.deliverKeyPress k).v, pc := (s.deliverKeyPress k).pc, status := .running } := by
  cases hs : s.status with
  | running => rw [State.deliverKeyPress_running k hs]; cases s; cases hs; rfl
  | waitingForKey r => rw [State.deliverKeyPress_waiting k hs]; rfl

/-- Settles O47: CLS and DRW are the exceptions of `exec_frame`; the host's operations write other fields; and every
pixel of the blank display is off. -/
theorem displayIsMutatedOnlyByClearAndDraw : Obligations.DisplayIsMutatedOnlyByClearAndDraw := by
  refine ⟨fun i s t h hne => ?instr, fun s op hstep hinit => ?hostOp, fun s font index _ => ?init,
    fun s t index _ h => ?cls⟩
  case instr =>
    by_contra hother
    obtain ⟨hcls, hdrw⟩ := not_or.mp hother
    exact hne ((exec_frame h).disp hcls fun x y n hi => hdrw ⟨x, y, n, hi⟩)
  case hostOp =>
    cases op with
    | init => cases hinit
    | step => exact absurd rfl hstep
    | load image => obtain ⟨m, hm, -⟩ := perform_load_frame s image; rw [hm]
    | deliverKeyPress k => exact (congrArg State.disp (s.deliverKeyPress_frame k)).trans rfl
    | timerTick | setKeyState | snapshot | soundActive => rfl
  case init => exact Display.pixel_blank _ _
  case cls => rw [exec_cls_eq] at h; cases h; exact Display.pixel_blank _ _

/-- Settles O48: by `exec_frame`, and each host operation writes only what it names. -/
theorem timersAndKeypadHaveOneWriterEach : Obligations.TimersAndKeypadHaveOneWriterEach := by
  refine ⟨fun i s t h => ?instr, fun s op hstep hinit => ?hostOp⟩
  case instr =>
    have hframe := exec_frame h
    exact ⟨hframe.key, hframe.dt, hframe.st⟩
  case hostOp =>
    cases op with
    | init => cases hinit
    | step => exact absurd rfl hstep
    | timerTick => exact ⟨fun h => absurd rfl h, fun _ => rfl⟩
    | setKeyState k down => exact ⟨fun _ => ⟨rfl, rfl⟩, fun h => absurd rfl (h k down)⟩
    | load image =>
      obtain ⟨m, hm, -⟩ := perform_load_frame s image
      rw [hm]
      exact ⟨fun _ => ⟨rfl, rfl⟩, fun _ => rfl⟩
    | deliverKeyPress k =>
      simp only [perform]
      rw [s.deliverKeyPress_frame k]
      exact ⟨fun _ => ⟨rfl, rfl⟩, fun _ => rfl⟩
    | snapshot | soundActive => exact ⟨fun _ => ⟨rfl, rfl⟩, fun _ => rfl⟩

/-- Reads without an error stay inside memory (R66). -/
theorem State.fits_of_readError_none {s : State} {n : Nat} (h : s.readError n = none) :
    0 < n → s.base + n ≤ 0x1000 := by
  intro hn
  by_contra hout
  rw [State.readError, if_pos ⟨hn, by omega⟩] at h
  cases h

/-- A store that raises no error starts above the glyph region (R65). -/
theorem State.base_of_writeError_none {s : State} {n : Nat} (h : s.writeError n = none) :
    0x050 ≤ s.base ∧ (0 < n → s.base + n ≤ 0x1000) := by
  unfold State.writeError at h
  split at h
  · cases h
  · have hfit := State.fits_of_readError_none h
    exact ⟨by omega, hfit⟩

/-- No instruction changes what the glyph region reads as (R65). -/
theorem exec_glyphRegion {i : Instr} {s t : State} {a : Nat} (h : exec i s = .next t) (ha : a ≤ 0x04F) :
    t.mem.byteAt a = s.mem.byteAt a := by
  obtain ⟨e, -, rfl⟩ | ⟨he, rfl⟩ := exec_cases h
  · rfl
  · cases i with
    | ldB | stBlock =>
      have hbase := (State.base_of_writeError_none he).1
      exact Memory.byteAt_storeAll_other _ (.inl (by omega))
    | _ => rfl

theorem step_glyphRegion {s t : State} {a : Nat} (h : step s = .next t) (ha : a ≤ 0x04F) :
    t.mem.byteAt a = s.mem.byteAt a := by
  obtain ⟨-, ⟨_, -, rfl⟩ | ⟨-, ⟨-, rfl⟩ | ⟨_, -, -, rfl⟩ | ⟨_, i, -, -, -, hx⟩⟩⟩ := step_cases h
  · rfl
  · rfl
  · rfl
  · exact exec_glyphRegion hx ha

/-- The state after the host's `step`: the next state, or the same one (R89, R223). -/
theorem hostStep_cases (s : State) : step s = .next s.hostStep.2 ∨ s.hostStep.2 = s := by
  unfold State.hostStep
  split
  · next h => exact .inl h
  · exact .inr rfl
  · exact .inr rfl

/-- Settles O46: a store without an error begins above the glyph region, and a load begins at 0x200. -/
theorem glyphRegionIsNeverOverwritten : Obligations.GlyphRegionIsNeverOverwritten := by
  refine ⟨fun s t a => step_glyphRegion, fun s op a hinit ha => ?_⟩
  cases op with
  | init => cases hinit
  | step =>
    obtain h | h := hostStep_cases s
    · exact step_glyphRegion h ha
    · exact congrArg (fun t => Memory.byteAt t.mem a) h
  | load image => obtain ⟨m, hm, hglyph, -⟩ := perform_load_frame s image; rw [hm]; exact hglyph a ha
  | deliverKeyPress k => exact congrArg (fun t => Memory.byteAt t.mem a) (s.deliverKeyPress_frame k)
  | timerTick | setKeyState | snapshot | soundActive => rfl

/-! ### What a program cannot observe -/

/-- An update of the state that changes neither the error nor, but for the update itself, the result of an instruction
changes nothing else of its outcome. -/
theorem exec_of_unread {i : Instr} {s t : State} {f : State → State} (h : exec i s = .next t)
    (herror : (f s).error? i = s.error? i) (hresult : (f s).result i = f (s.result i))
    (hrecord : ∀ e, (f s).recordFault e = f (s.recordFault e)) : exec i (f s) = .next (f t) := by
  obtain ⟨e, he, rfl⟩ | ⟨he, rfl⟩ := exec_cases h
  · rw [exec_of_error (herror.trans he), hrecord]
  · rw [exec_of_no_error (herror.trans he), hresult]

/-- The error of an instruction is read off `PC`, `I`, the registers and the depth alone. -/
theorem State.error?_congr {s t : State} (hpc : t.pc = s.pc) (hi : t.i = s.i) (hv : t.v = s.v)
    (hdepth : t.depth = s.depth) (i : Instr) : t.error? i = s.error? i := by
  have hread : ∀ n, t.readError n = s.readError n := by
    intro n; unfold State.readError State.base; rw [hi, hpc]
  have hwrite : ∀ n, t.writeError n = s.writeError n := by
    intro n; unfold State.writeError State.base; rw [hread, hi, hpc]
  have hkey : ∀ x, t.keyError x = s.keyError x := by
    intro x; unfold State.keyError State.reg; rw [hv, hpc]
  cases i with
  | ret | call => unfold State.error?; rw [hdepth, hpc]
  | drw | ldBlock => exact hread _
  | ldB | stBlock => exact hwrite _
  | skp | sknp => exact hkey _
  | _ => rfl

/-- Settles O51: each instruction but the excepted ones computes its error and its result without the field. -/
theorem unreadStateDoesNotInfluence : Obligations.UnreadStateDoesNotInfluence := by
  intro i s t h
  refine ⟨fun dt' hRead hWrite => ?dt, fun st' hWrite => ?st, fun key' hSkp hSknp => ?key,
    fun disp' hCls hDrw => ?disp, fun n hRnd => ?draws⟩
  case dt =>
    refine exec_of_unread (f := fun s => { s with dt := dt' }) h
      (State.error?_congr rfl rfl rfl rfl i) ?_ fun _ => rfl
    cases i with
    | ldVDt x => exact absurd rfl (hRead x)
    | ldDtV x => exact absurd rfl (hWrite x)
    | _ => rfl
  case st =>
    refine exec_of_unread (f := fun s => { s with st := st' }) h
      (State.error?_congr rfl rfl rfl rfl i) ?_ fun _ => rfl
    cases i with
    | ldStV x => exact absurd rfl (hWrite x)
    | _ => rfl
  case key =>
    refine exec_of_unread (f := fun s => { s with key := key' }) h
      (State.error?_congr rfl rfl rfl rfl i) ?_ fun _ => rfl
    cases i with
    | skp x => exact absurd rfl (hSkp x)
    | sknp x => exact absurd rfl (hSknp x)
    | _ => rfl
  case disp =>
    refine exec_of_unread (f := fun s => { s with disp := disp' }) h
      (State.error?_congr rfl rfl rfl rfl i) ?_ fun _ => rfl
    cases i with
    | cls => exact absurd rfl hCls
    | drw x y n => exact absurd rfl (hDrw x y n)
    | _ => rfl
  case draws =>
    refine exec_of_unread (f := fun s => { s with draws := n }) h
      (State.error?_congr rfl rfl rfl rfl i) ?_ fun _ => rfl
    cases i with
    | rnd x kk => exact absurd rfl (hRnd x kk)
    | _ => rfl

end Sys2Proof.Machine
end

section
/-! PROOFS. The invariant of the machine: it holds after initialisation, and every step and every host operation keeps
it (spec/10_state.md R25; spec/20_memory.md R60; spec/60_exceptions.md R222, R226, R241). -/

namespace Sys2Proof.Machine

/-! ### After initialisation -/

theorem State.inv_reset : State.reset.Inv where
  memWf := rfl
  pcBound := by decide
  slotBound := by decide
  waitClean _ h := by cases h
  faultCause _ h := by cases h

/-- A glyph table is stored at 0x000 to 0x04F. -/
theorem State.init_mem_wf (font : Vector Byte 80) : Memory.wf (State.init font).mem = true :=
  Memory.storeAll_wf font.toList (by rw [Vector.length_toList]; omega) rfl

theorem State.inv_init (font : Vector Byte 80) : (State.init font).Inv :=
  { State.inv_reset with
    memWf := State.init_mem_wf font
    faultCause := fun _ h => by cases h }

/-- Settles O52: `init` differs from `State.reset` in memory alone, and that is canonical. -/
theorem invariantHoldsAfterInit : Obligations.InvariantHoldsAfterInit := ⟨State.inv_reset, State.inv_init⟩

/-! ### The cause of a recorded error -/

/-- The cause of an error is read off `PC`, `I`, the registers and the depth alone. -/
theorem Fault.NamesItsCause.congr {e : Fault} {s t : State} (h : e.NamesItsCause s) (hpc : t.pc = s.pc)
    (hi : t.i = s.i) (hv : t.v = s.v) (hdepth : t.depth = s.depth) : e.NamesItsCause t := by
  cases e <;> simpa only [Fault.NamesItsCause, State.reg, hpc, hi, hv, hdepth] using h

/-- Recording an error that names its cause keeps the invariant of a running machine (R222). -/
theorem State.Inv.recordFault {s : State} {e : Fault} (h : s.Inv) (hr : s.status = .running)
    (he : e.NamesItsCause s) : (s.recordFault e).Inv :=
  { h with
    waitClean := fun r hw => by cases hr.symm.trans hw
    faultCause := fun _ hf => by cases hf; exact he.congr rfl rfl rfl rfl }

/-! ### A step -/

/-- "The largest value any rule can give `PC` is 0x10FE" (R25): from a fetched `PC` the sums stay below 0x1003, a popped
address is at most 0x1000, and `nnn + V0` is at most 0xFFF + 0xFF. -/
theorem State.Inv.nextPc_le {s : State} {i : Instr} (h : s.Inv) (hpc : s.pc.toNat ≤ 0xFFE)
    (he : s.error? i = none) : (s.nextPc i).toNat ≤ 0x10FE := by
  have hskip : ∀ c, (s.skipIf c).pc.toNat ≤ 0x10FE := by
    intro c
    rw [State.skipIf_pc_toNat (p := c = true) hpc Iff.rfl]
    split <;> omega
  cases i with
  | jp nnn | call nnn =>
    have := nnn.isLt
    exact (zextAddr_toNat nnn).trans_le (by omega)
  | jpV0 nnn =>
    have := nnn.isLt
    have := (s.reg 0).isLt
    exact (zextAddr_add_zextByte_toNat nnn (s.reg 0)).trans_le (by omega)
  | ret =>
    have hdepth : s.depth.val ≠ 0 := fun h0 => by rw [State.error?, if_pos h0] at he; cases he
    exact (h.slotBound (s.depth.val - 1) (by omega) (by omega)).trans (by omega)
  | seK | sneK | seR | sneR | skp | sknp => exact hskip _
  | ldVK => exact h.pcBound
  | _ => exact (State.advance_pc_toNat hpc).trans_le (by omega)

/-- Memory stays canonical: a store that raises no error ends inside memory (R60, R67). -/
theorem State.result_mem_wf {s : State} {i : Instr} (h : Memory.wf s.mem = true) (he : s.error? i = none) :
    Memory.wf (s.result i).mem = true := by
  cases i with
  | ldB x =>
    have hfit := (State.base_of_writeError_none he).2 (by omega)
    exact Memory.storeAll_wf (bcdDigits (s.reg x)) hfit h
  | stBlock x =>
    have hfit := (State.base_of_writeError_none he).2 (by omega)
    exact Memory.storeAll_wf (s.regBlock x) (by rw [State.length_regBlock]; exact hfit) h
  | _ => exact h

/-- Occupied slots stay post-fetch addresses: a return frees one, and a call from a fetched `PC` pushes `PC + 2`
(R112). -/
theorem State.Inv.result_slotBound {s : State} {i : Instr} (h : s.Inv) (hpc : s.pc.toNat ≤ 0xFFE) :
    ∀ k (hk : k < 16), k < (s.result i).depth.val → ((s.result i).stack[k]).toNat ≤ 0x1000 := by
  intro k hk hocc
  cases i with
  | ret => exact h.slotBound k hk (Nat.lt_of_lt_of_le hocc (Nat.sub_le _ _))
  | call nnn =>
    have hocc' : k < s.depth.val + 1 := Nat.lt_of_lt_of_le hocc (Nat.min_le_left _ _)
    simp only [State.result, Vector.getElem_setIfInBounds]
    split
    · exact (State.advance_pc_toNat hpc).trans_le (by omega)
    · exact h.slotBound k hk (by omega)
  | _ => exact h.slotBound k hk hocc

/-- An instruction that raises no error keeps the invariant. -/
theorem State.Inv.result {s : State} {i : Instr} (h : s.Inv) (hf : s.fault = none) (hr : s.status = .running)
    (hpc : s.pc.toNat ≤ 0xFFE) (he : s.error? i = none) : (s.result i).Inv where
  memWf := State.result_mem_wf h.memWf he
  pcBound := by
    obtain ⟨e, hrec⟩ | ⟨-, hnext⟩ := exec_pc_cases (exec_of_no_error he)
    · rw [hrec]; exact h.pcBound
    · rw [hnext]; exact h.nextPc_le hpc he
  slotBound := h.result_slotBound hpc
  waitClean r hw := by
    refine ⟨(s.result_fault i).trans hf, ?_⟩
    cases i with
    | ldVK x => exact hpc
    | _ => cases hr.symm.trans hw
  faultCause e hfault := by
    rw [State.result_fault, hf] at hfault
    cases hfault

/-- Settles O53: by the cases of a step, it waits, records an error whose cause stands in the state, or executes an
instruction at a fetched `PC`. -/
theorem stepKeepsTheInvariant : Obligations.StepKeepsTheInvariant := by
  intro s t hinv h
  obtain ⟨hf, ⟨r, -, rfl⟩ | ⟨hr, ⟨hpc, rfl⟩ | ⟨w, -, hw, rfl⟩ | ⟨w, i, hpc, -, -, hx⟩⟩⟩ := step_cases h
  · exact hinv
  · exact hinv.recordFault hr ⟨rfl, by omega, .inl rfl⟩
  · exact hinv.recordFault hr ⟨rfl, hw⟩
  · obtain ⟨e, he, rfl⟩ | ⟨he, rfl⟩ := exec_cases hx
    · exact hinv.recordFault hr (State.error?_namesItsCause he).2
    · exact hinv.result hf hr hpc he

/-! ### Host operations and runs -/

/-- The delivery of a key ends a wait at a fetched `PC`, with no fault recorded (R204). -/
theorem State.Inv.deliverKeyPress {s : State} (h : s.Inv) (k : Key) : (s.deliverKeyPress k).Inv := by
  cases hs : s.status with
  | running => rwa [State.deliverKeyPress_running k hs]
  | waitingForKey r =>
    obtain ⟨hf, hpc⟩ := h.waitClean r hs
    rw [State.deliverKeyPress_waiting k hs]
    exact
      { h with
        pcBound := (State.advance_pc_toNat hpc).trans_le (by omega)
        waitClean := fun _ hw => by cases hw
        faultCause := fun _ he => by cases hf.symm.trans he }

/-- Settles O54: the step by O53, the delivery of a key as above; the other operations write no field the invariant
reads, but for memory, which stays canonical. -/
theorem hostOperationsKeepTheInvariant : Obligations.HostOperationsKeepTheInvariant := by
  intro s op h
  cases op with
  | init font => exact { State.inv_init font with faultCause := fun _ he => by cases he }
  | load image =>
    obtain ⟨m, hm, -, hwf⟩ := perform_load_frame s image
    rw [hm]
    exact { h with memWf := hwf h.memWf, faultCause := fun e he => (h.faultCause e he).congr rfl rfl rfl rfl }
  | step =>
    obtain hstep | hsame := hostStep_cases s
    · exact stepKeepsTheInvariant _ _ h hstep
    · exact hsame.symm ▸ h
  | timerTick | setKeyState =>
    exact { h with faultCause := fun e he => (h.faultCause e he).congr rfl rfl rfl rfl }
  | deliverKeyPress k => exact h.deliverKeyPress k
  | snapshot | soundActive => exact h

/-- A property that every host operation keeps holds after any sequence of them. -/
theorem performAll_induction {P : State → Prop} {ops : List HostOp} {s : State} (h0 : P s)
    (hkeep : ∀ op ∈ ops, ∀ t, P t → P (perform op t).2) : P (performAll ops s) := by
  induction ops generalizing s with
  | nil => exact h0
  | cons op ops ih =>
    exact ih (hkeep op List.mem_cons_self s h0) fun op' hop => hkeep op' (List.mem_cons_of_mem _ hop)

/-- A host step answers `Ok` or an error: no instruction is refused (R90). -/
theorem hostStep_answers (s : State) : s.hostStep.1 = .ok ∨ ∃ e, s.hostStep.1 = .stepError e := by
  unfold State.hostStep
  cases hf : s.fault with
  | some e => rw [step_recorded hf]; exact .inr ⟨e, rfl⟩
  | none =>
    obtain ⟨t, ht⟩ := everyInstructionAnswersNext.2 s hf
    rw [ht]
    simp only [stepResult]
    cases t.fault with
    | none => exact .inl rfl
    | some e => exact .inr ⟨e, rfl⟩

/-- Settles O55: by O52 and O54 along the run, and a step answers `Ok` or an error in every state. -/
theorem everyRunStaysInTheInvariant : Obligations.EveryRunStaysInTheInvariant := by
  intro font ops t
  refine ⟨performAll_induction (State.inv_init font) fun op _ u => hostOperationsKeepTheInvariant u op, ?_⟩
  exact hostStep_answers t

end Sys2Proof.Machine
end

section
/-! PROOFS. Call and return (spec/40_control_flow.md R110, R112) and the key skips (spec/44_timers_keypad.md R200,
R201). -/

namespace Sys2Proof.Machine

/-! ### Call and return -/

/-- Settles O11: the result of RET is the pop, and its error an empty stack. -/
theorem retPopsTheStack : Obligations.RetPopsTheStack := by
  refine fun s => ⟨fun h => ⟨s.result .ret, exec_of_no_error (if_neg (by omega)), rfl, ?depth, ?top⟩,
    fun h => exec_of_error (if_pos h)⟩
  case depth => exact Nat.sub_add_cancel h
  case top => exact Vector.getElem?_eq_getElem _

/-- Settles O13: the result of CALL is the push, and its error a full stack. -/
theorem callPushesThePostFetchPc : Obligations.CallPushesThePostFetchPc := by
  refine fun s nnn => ⟨fun hdepth hpc => ⟨s.result (.call nnn), s.pc + 2, exec_of_no_error (if_neg (by omega)), rfl,
    zextAddr_toNat nnn, ?depth, ?pushed, State.advance_pc_toNat hpc, ?others⟩, fun h => exec_of_error (if_pos h)⟩
  case depth => exact Nat.min_eq_left hdepth
  case pushed => exact Vector.getElem?_setIfInBounds_self_of_lt hdepth
  case others => exact fun k hk => Vector.getElem?_setIfInBounds_ne hk.symm

/-- Settles O14: by O13 and O11; the slot popped is the one pushed. -/
theorem callThenReturnRoundTrip : Obligations.CallThenReturnRoundTrip := by
  intro s nnn hdepth hpc
  obtain ⟨t, w, hcall, ht, htpc, htdepth, hslot, hw, hothers⟩ := (callPushesThePostFetchPc s nnn).1 hdepth hpc
  obtain ⟨u, hret, hu, hudepth, htop⟩ := (retPopsTheStack t).1 (by omega)
  have hback : u.depth = s.depth := Fin.ext (by omega)
  have hpcw : u.pc = w := Option.some.inj (htop.symm.trans (hback ▸ hslot))
  have hstack : u.stack = t.stack := by rw [hu]
  refine ⟨t, u, hcall, hret, htpc, hpcw ▸ hw, ?frame, fun k hk => hstack ▸ hothers k (by omega)⟩
  case frame =>
    calc u = { t with pc := u.pc, depth := u.depth } := hu
      _ = { s with pc := u.pc, depth := u.depth, stack := t.stack } := by rw [ht]
      _ = { s with pc := u.pc, stack := u.stack } := by rw [hback, hstack]

/-! ### The key skips -/

/-- Settles O34: an index up to 15 names a key, whose state is the condition of the skip; a larger one is the error. -/
theorem keySkipsReadTheKeypad : Obligations.KeySkipsReadTheKeypad := by
  refine fun s x => ⟨fun h => ?skip, fun h => ⟨exec_of_error (if_pos h), exec_of_error (if_pos h)⟩⟩
  case skip =>
    have hnone : s.keyError x = none := if_neg (by omega)
    have hkey : s.key[(s.reg x).toNat]? = some s.key[(s.reg x).toNat] := Vector.getElem?_eq_getElem h
    rw [exec_of_no_error (i := .skp x) hnone, exec_of_no_error (i := .sknp x) hnone]
    simp only [State.result, hkey, Option.some.injEq]
    cases s.key[(s.reg x).toNat] <;> simp

end Sys2Proof.Machine
end

section
/-! PROOFS. The flag arithmetic (spec/41_alu.md R136 to R143), the random byte (R141) and the glyph address
(spec/42_index_memory.md R162). -/

namespace Sys2Proof.Machine

/-! ### The flag, then the result -/

/-- What `State.flagThenResult` does, said once: the result is computed after the flag is written, and is written
last. -/
theorem State.flagThenResult_next (s : State) (x : Reg) (flag : Byte) (result : State → Byte) :
    ∃ t, s.flagThenResult x flag result = .next t ∧ s.FrameRegs t [x, 15] ∧
      t.reg x = result (s.setFlag flag) ∧ (x ≠ 15 → t.reg 15 = flag) := by
  refine ⟨_, rfl, ⟨rfl, fun r hr => ?_⟩, State.reg_setReg_same _ _ _, fun hx => ?_⟩
  · rw [List.mem_pair, not_or] at hr
    exact (State.reg_setReg_other _ _ hr.1).trans (State.reg_setReg_other _ _ hr.2)
  · exact (State.reg_setReg_other _ _ hx.symm).trans (State.reg_setReg_same _ _ _)

/-- A register after the flag is written. -/
theorem State.reg_setFlag (s : State) (flag : Byte) (r : Reg) :
    (s.setFlag flag).reg r = if r = 15 then flag else s.reg r := s.reg_setReg 15 r flag

theorem flagByte_toNat (p : Prop) [Decidable p] : (flagByte (decide p)).toNat = if p then 1 else 0 := by
  by_cases h : p <;> simp [flagByte, h]

theorem carryFlag_toNat (a b : Byte) : (carryFlag a b).toNat = if 255 < a.toNat + b.toNat then 1 else 0 :=
  flagByte_toNat _

theorem greaterFlag_toNat (a b : Byte) : (greaterFlag a b).toNat = if b.toNat < a.toNat then 1 else 0 :=
  flagByte_toNat _

theorem shiftedOutRight_toNat (a : Byte) : (shiftedOutRight a).toNat = a.toNat % 2 := by
  simp [shiftedOutRight, Nat.and_one_is_mod]

theorem shiftedOutLeft_toNat (a : Byte) : (shiftedOutLeft a).toNat = a.toNat / 128 := by
  have hlt := a.isLt
  have hbit : (shiftedOutLeft a).toNat = a.toNat / 2 ^ 7 % 2 := by
    simp [shiftedOutLeft, Nat.shiftRight_eq_div_pow, Nat.and_one_is_mod]
  omega

/-- An 8-bit difference, wrapped. -/
theorem byte_sub_toNat (a b : Byte) : (a - b).toNat = (a.toNat + 256 - b.toNat) % 256 := by
  have hb := b.isLt
  rw [BitVec.toNat_sub]
  omega

/-- Settles O18: the sum is taken in the state whose `VF` is the carry. -/
theorem addWithCarryAndAliasing : Obligations.AddWithCarryAndAliasing := by
  intro s x y
  obtain ⟨t, ht, hframe, hx, hflag⟩ :=
    s.flagThenResult_next x (carryFlag (s.reg x) (s.reg y)) fun u => u.reg x + u.reg y
  refine ⟨t, ht, hframe, ?_⟩
  intro a b carry
  have hcarry : (carryFlag (s.reg x) (s.reg y)).toNat = carry := carryFlag_toNat _ _
  have hsum : (t.reg x).toNat = ((if x = 15 then carry else a) + if y = 15 then carry else b) % 256 := by
    rw [hx, BitVec.toNat_add, State.reg_setFlag, State.reg_setFlag, apply_ite BitVec.toNat, apply_ite BitVec.toNat,
      hcarry]
  refine ⟨fun hx15 hy15 => ⟨hflag hx15 ▸ hcarry, by rw [hsum, if_neg hx15, if_neg hy15]⟩,
    fun hx15 hy15 => ⟨hflag hx15 ▸ hcarry, by rw [hsum, if_neg hx15, if_pos hy15]⟩,
    fun hx15 hy15 => by rw [← hx15, hsum, if_pos hx15, if_neg hy15], fun hx15 hy15 => ?both⟩
  case both =>
    have hle : carry ≤ 1 := by simp only [carry]; split <;> omega
    rw [← hx15, hsum, if_pos hx15, if_pos hy15]
    omega

/-- A difference of two registers after its flag is written: the flag takes the place of an operand that is `VF`. -/
theorem State.flagThenDifference_next (s : State) (x p q : Reg) :
    let flag := if (s.reg q).toNat < (s.reg p).toNat then 1 else 0
    ∃ t, s.flagThenResult x (greaterFlag (s.reg p) (s.reg q)) (fun u => u.reg p - u.reg q) = .next t ∧
      s.FrameRegs t [x, 15] ∧ (x ≠ 15 → (t.reg 15).toNat = flag) ∧
      (t.reg x).toNat = ((if p = 15 then flag else (s.reg p).toNat) + 256 -
        if q = 15 then flag else (s.reg q).toNat) % 256 := by
  intro flag
  obtain ⟨t, ht, hframe, hx, hflag⟩ :=
    s.flagThenResult_next x (greaterFlag (s.reg p) (s.reg q)) fun u => u.reg p - u.reg q
  have hgreater : (greaterFlag (s.reg p) (s.reg q)).toNat = flag := greaterFlag_toNat _ _
  refine ⟨t, ht, hframe, fun hx15 => hflag hx15 ▸ hgreater, ?_⟩
  rw [hx, byte_sub_toNat, State.reg_setFlag, State.reg_setFlag, apply_ite BitVec.toNat, apply_ite BitVec.toNat,
    hgreater]

/-- Settles O19: both differences by `State.flagThenDifference_next`; with both operands `VF` the flag cancels. -/
theorem subtractsWithBorrowAndAliasing : Obligations.SubtractsWithBorrowAndAliasing := by
  intro s x y a b
  refine ⟨?sub, ?subn⟩
  case sub =>
    obtain ⟨t, ht, hframe, hflag, hx⟩ := s.flagThenDifference_next x x y
    exact ⟨t, ht, hframe, fun hx15 hy15 => ⟨hflag hx15, by rw [hx, if_neg hx15, if_neg hy15]⟩,
      fun hx15 hy15 => ⟨hflag hx15, by rw [hx, if_neg hx15, if_pos hy15]⟩,
      fun hx15 hy15 => by rw [← hx15, hx, if_pos hx15, if_neg hy15],
      fun hx15 hy15 => by rw [← hx15, hx, if_pos hx15, if_pos hy15, Nat.add_sub_cancel_left]⟩
  case subn =>
    obtain ⟨t, ht, hframe, hflag, hx⟩ := s.flagThenDifference_next x y x
    exact ⟨t, ht, hframe, fun hx15 hy15 => ⟨hflag hx15, by rw [hx, if_neg hx15, if_neg hy15]⟩,
      fun hx15 hy15 => ⟨hflag hx15, by rw [hx, if_neg hx15, if_pos hy15]⟩,
      fun hx15 hy15 => by rw [← hx15, hx, if_pos hx15, if_neg hy15],
      fun hx15 hy15 => by rw [← hx15, hx, if_pos hx15, if_pos hy15, Nat.add_sub_cancel_left]⟩

theorem byte_shiftRight_one_toNat (a : Byte) : (a >>> 1).toNat = a.toNat / 2 := by
  simp [Nat.shiftRight_eq_div_pow]

theorem byte_shiftLeft_one_toNat (a : Byte) : (a <<< 1).toNat = 2 * a.toNat % 256 := by
  simp [Nat.shiftLeft_eq, Nat.mul_comm]

/-- Settles O20: `y` is not read; with `x` = 15 the byte shifted is the flag, 0 or 1. -/
theorem shiftsIgnoreY : Obligations.ShiftsIgnoreY := by
  intro s x y a
  have ha : a < 256 := (s.reg x).isLt
  refine ⟨?shr, ?shl⟩
  case shr =>
    obtain ⟨t, ht, hframe, hx, hflag⟩ :=
      s.flagThenResult_next x (shiftedOutRight (s.reg x)) fun u => u.reg x >>> 1
    have hbit := shiftedOutRight_toNat (s.reg x)
    simp only [State.reg_setFlag] at hx
    refine ⟨t, ht, hframe, fun hx15 => ?plain, fun hx15 => ?flagX⟩
    case plain =>
      rw [if_neg hx15] at hx
      exact ⟨hflag hx15 ▸ hbit, hx ▸ byte_shiftRight_one_toNat _⟩
    case flagX =>
      rw [if_pos hx15] at hx
      rw [← hx15, hx, byte_shiftRight_one_toNat, hbit]
      omega
  case shl =>
    obtain ⟨t, ht, hframe, hx, hflag⟩ :=
      s.flagThenResult_next x (shiftedOutLeft (s.reg x)) fun u => u.reg x <<< 1
    have hbit := shiftedOutLeft_toNat (s.reg x)
    simp only [State.reg_setFlag] at hx
    refine ⟨t, ht, hframe, fun hx15 => ?plain, fun hx15 => ?flagX⟩
    case plain =>
      rw [if_neg hx15] at hx
      exact ⟨hflag hx15 ▸ hbit, hx ▸ byte_shiftLeft_one_toNat _⟩
    case flagX =>
      rw [if_pos hx15] at hx
      rw [← hx15, hx, byte_shiftLeft_one_toNat, hbit]
      omega

/-- Settles O21: a `State.putReg` after the draw is used up; a mask of 0 clears the byte, 0xFF keeps it. -/
theorem randomByteIsMasked : Obligations.RandomByteIsMasked := by
  intro s x kk
  obtain ⟨t, ht, ⟨hframe, hothers⟩, hx⟩ := s.drawn.putReg_next x (s.randomByte &&& kk)
  refine ⟨t, ht, hframe, fun r hr => hothers r (by simpa using hr), fun k _ => hx ▸ BitVec.getLsbD_and, ?zero, ?ones⟩
  case zero => rintro rfl; rw [hx]; exact BitVec.and_zero
  case ones => rintro rfl; rw [hx]; exact BitVec.and_allOnes

/-- Five times a byte is below 65536 (R63). -/
theorem glyphAddress_toNat (d : Byte) : (glyphAddress d).toNat = 5 * d.toNat := by
  have hlt := d.isLt
  have hfive : (5 : Word).toNat = 5 := rfl
  simp only [glyphAddress, zextByte, BitVec.toNat_mul, BitVec.toNat_setWidth, hfive]
  omega

/-- Settles O23: the result of LD F sets `I` to the glyph address, which is exact. -/
theorem glyphAddressIsFiveTimes : Obligations.GlyphAddressIsFiveTimes :=
  fun s x => ⟨(s.setI (glyphAddress (s.reg x))).advance, rfl, rfl, glyphAddress_toNat (s.reg x)⟩

end Sys2Proof.Machine
end

section
/-! PROOFS. The memory transfers (spec/42_index_memory.md R163 to R165), the access primitives (spec/20_memory.md R66,
R67, R74) and the canonical form of memory. -/

namespace Sys2Proof.Machine

/-! ### When a transfer raises which error -/

theorem State.readError_none {s : State} {n : Nat} (hfit : s.base + n ≤ 0x1000) : s.readError n = none :=
  if_neg (by omega)

theorem State.readError_outOfBounds {s : State} {n : Nat} (hn : 0 < n) (hout : 0x1000 < s.base + n) :
    s.readError n = some (.outOfBoundsAccess (max s.base 0x1000) s.pc) := if_pos ⟨hn, hout⟩

theorem State.writeError_rom {s : State} {n : Nat} (hrom : s.base ≤ 0x04F) :
    s.writeError n = some (.romWrite s.base s.pc) := if_pos hrom

/-- Outside the glyph region a write errs as a read does (R67). -/
theorem State.writeError_eq_readError {s : State} {n : Nat} (hbase : 0x050 ≤ s.base) :
    s.writeError n = s.readError n := if_neg (by omega)

/-! ### The bytes and addresses of a transfer -/

/-- The byte of `V[k]` in the register block (R164). -/
theorem State.getElem_regBlock (s : State) {x k : Reg} (h : k.val < (s.regBlock x).length) :
    (s.regBlock x)[k.val] = s.reg k := by
  simp only [State.regBlock, List.getElem_take, Vector.getElem_toList]
  rfl

/-- From an `I` inside memory the advance does not wrap (R164, R165). -/
theorem State.advancedI_toNat {s : State} {x : Reg} (h : s.base ≤ 0x1000) :
    (s.advancedI x).toNat = s.i.toNat + x.val + 1 := by
  have hx := x.isLt
  have hbase : s.base = s.i.toNat := rfl
  simp only [State.advancedI, BitVec.toNat_add, BitVec.toNat_ofNat]
  omega

/-- A digit, or the hundreds of a byte, is a byte. -/
theorem ofNat_toNat_of_lt {n : Nat} (h : n < 256) : (BitVec.ofNat 8 n).toNat = n := Nat.mod_eq_of_lt h

/-! ### The transfers -/

/-- Settles O24: the result of LD B stores the three digits, and a canonical memory reads them back. -/
theorem storeBcdDigits : Obligations.StoreBcdDigits := by
  intro s x hwf
  have hlt := (s.reg x).isLt
  refine ⟨fun hbase hfit => ?stores, fun hout => ?bounds, fun hrom => exec_of_error (State.writeError_rom hrom)⟩
  case stores =>
    have hfit' : s.base + (bcdDigits (s.reg x)).length ≤ 0x1000 := Nat.add_le_add_right hfit 3
    have hread : ∀ j (h : j < 3), Memory.byteAt _ (s.base + j) = (bcdDigits (s.reg x))[j]'h :=
      Memory.byteAt_storeAll (bcdDigits (s.reg x)) hfit' hwf
    have herror : s.error? (.ldB x) = none :=
      (State.writeError_eq_readError hbase).trans (State.readError_none hfit')
    refine ⟨s.result (.ldB x), exec_of_no_error herror, rfl, ?hundreds, ?tens, ?units,
      fun a ha => Memory.byteAt_storeAll_other _ ha⟩
    case hundreds => exact (congrArg BitVec.toNat (hread 0 (by omega))).trans (ofNat_toNat_of_lt (by omega))
    case tens => exact (congrArg BitVec.toNat (hread 1 (by omega))).trans (ofNat_toNat_of_lt (by omega))
    case units => exact (congrArg BitVec.toNat (hread 2 (by omega))).trans (ofNat_toNat_of_lt (by omega))
  case bounds =>
    exact exec_of_error ((State.writeError_eq_readError (by omega)).trans
      (State.readError_outOfBounds (by omega) (by omega)))

/-- Settles O25: the result of LD [I], Vx stores the register block, and a canonical memory reads it back. -/
theorem storeRegisterBlock : Obligations.StoreRegisterBlock := by
  intro s x hwf
  have hx := x.isLt
  refine ⟨fun hbase hfit => ?stores, fun hout => ?bounds, fun hrom => exec_of_error (State.writeError_rom hrom)⟩
  case stores =>
    have hfit' : s.base + (s.regBlock x).length ≤ 0x1000 := by rw [State.length_regBlock]; omega
    have herror : s.error? (.stBlock x) = none :=
      (State.writeError_eq_readError hbase).trans (State.readError_none (by omega))
    refine ⟨s.result (.stBlock x), exec_of_no_error herror, rfl, State.advancedI_toNat (by omega), fun k hk => ?block,
      fun a ha => Memory.byteAt_storeAll_other _ (by rw [State.length_regBlock]; omega)⟩
    case block =>
      have hlen : k.val < (s.regBlock x).length := s.length_regBlock x ▸ Nat.lt_succ_of_le hk
      exact (Memory.byteAt_storeAll (s.regBlock x) hfit' hwf k.val hlen).trans (s.getElem_regBlock hlen)
  case bounds =>
    exact exec_of_error ((State.writeError_eq_readError (by omega)).trans
      (State.readError_outOfBounds (by omega) (by omega)))

/-- Settles O26: the result of LD Vx, [I] is known register by register. -/
theorem loadRegisterBlock : Obligations.LoadRegisterBlock := by
  intro s x
  refine ⟨fun hfit => ?loads, fun hout => exec_of_error (State.readError_outOfBounds (by omega) (by omega))⟩
  case loads =>
    refine ⟨s.result (.ldBlock x), exec_of_no_error (State.readError_none (by omega)), rfl,
      State.advancedI_toNat (by omega), fun k hk => ?loaded, fun k hk => ?kept⟩
    case loaded => rw [State.reg_ldBlock_result, if_pos hk]
    case kept => rw [State.reg_ldBlock_result, if_neg (Fin.not_le.mpr hk)]

/-- Settles O27: by O25 and O26; the load reads the addresses the store wrote. -/
theorem storeThenLoadReproducesRegisters : Obligations.StoreThenLoadReproducesRegisters := by
  intro s x v' hwf hbase hfit
  obtain ⟨t, hstore, -, hti, hblock, -⟩ := (storeRegisterBlock s x hwf).1 hbase hfit
  obtain ⟨u, hload, -, hui, hloaded, -⟩ := (loadRegisterBlock { t with v := v', i := s.i } x).1 hfit
  exact ⟨t, u, hstore, hload, fun k hk => (hloaded k hk).trans (hblock k hk),
    BitVec.eq_of_toNat_eq (hui.trans hti.symm), hui⟩

/-- Settles O28: the primitives in each range of addresses, and the store of one byte read back. -/
theorem readReturnsLastWrite : Obligations.ReadReturnsLastWrite := by
  intro s a b hwf
  refine ⟨fun hlow hhigh => ⟨_, State.memWrite_ok b hlow hhigh, rfl, ?same, fun q hq => ?other⟩,
    fun hout => ⟨State.memWrite_outOfBounds b hout, State.memRead_error hout⟩,
    fun hrom => ⟨State.memWrite_rom b hrom, State.memRead_ok (by omega)⟩⟩
  case same => rw [State.memRead_ok hhigh, Memory.byteAt_store_same a b hwf]
  case other => simp only [State.memRead, Memory.byteAt_store_other hq]

/-- Settles O29: by O25, `V[0]` and `V[1]` stand at the next `PC`. -/
theorem nextFetchSeesTheStore : Obligations.NextFetchSeesTheStore := by
  intro s x hwf hx hpc hi hbase hfit
  obtain ⟨t, hstore, ht, -, hblock, -⟩ := (storeRegisterBlock s x hwf).1 hbase hfit
  have htpc : t.pc.toNat = s.base := by rw [ht, State.base, hi]
  have h0 : t.mem.byteAt t.pc.toNat = s.reg 0 := htpc ▸ hblock 0 (Fin.zero_le x)
  have h1 : t.mem.byteAt (t.pc.toNat + 1) = s.reg 1 := htpc ▸ hblock 1 hx
  refine ⟨t, _, hstore, State.fetch_ok (by omega), ?_⟩
  rw [bigEndian_toNat, h0, h1]

/-! ### Equality of memories -/

theorem Memory.byteAt_cons_self (k : Nat) (b : Byte) (m : Memory) : Memory.byteAt ((k, b) :: m) k = b := if_pos rfl

theorem Memory.byteAt_cons_of_ne {k a : Nat} (b : Byte) (m : Memory) (h : k ≠ a) :
    Memory.byteAt ((k, b) :: m) a = Memory.byteAt m a := if_neg h

/-- A canonical memory that reads as the head entry of another at its address does not begin above that address. -/
theorem Memory.head_le_of_byteAt_eq {k k' lo lo' : Nat} {b b' : Byte} {m m' : Memory}
    (hm : Memory.wfFrom lo ((k, b) :: m) = true) (hm' : Memory.wfFrom lo' ((k', b') :: m') = true)
    (h : Memory.byteAt ((k, b) :: m) k = Memory.byteAt ((k', b') :: m') k) : k' ≤ k := by
  by_contra hlt
  obtain ⟨-, -, hlisted, -⟩ := Memory.wfFrom_cons.1 hm
  obtain ⟨-, hrest⟩ := Memory.wfFrom_cons.1 hm'
  have hunlisted := Memory.byteAt_below (Memory.wfFrom_cons.2 ⟨Nat.le_refl k', hrest⟩) (Nat.lt_of_not_le hlt)
  exact hlisted ((Memory.byteAt_cons_self k b m).symm.trans (h.trans hunlisted))

/-- A canonical memory with an entry does not read as the reset contents. -/
theorem Memory.not_reads_unlisted {k lo : Nat} {b : Byte} {m : Memory}
    (hm : Memory.wfFrom lo ((k, b) :: m) = true) :
    ¬ ∀ a, a < 4096 → Memory.byteAt ((k, b) :: m) a = unlistedByte a := by
  intro h
  obtain ⟨-, hk, hlisted, -⟩ := Memory.wfFrom_cons.1 hm
  exact hlisted ((Memory.byteAt_cons_self k b m).symm.trans (h k hk))

/-- Where two canonical memories with one head entry read alike, their tails do: below the head both are unlisted. -/
theorem Memory.tails_read_alike {k a : Nat} {b : Byte} {m m' : Memory} (hm : Memory.wfFrom (k + 1) m = true)
    (hm' : Memory.wfFrom (k + 1) m' = true)
    (h : Memory.byteAt ((k, b) :: m) a = Memory.byteAt ((k, b) :: m') a) :
    Memory.byteAt m a = Memory.byteAt m' a := by
  by_cases hka : k = a
  · rw [Memory.byteAt_below hm (by omega), Memory.byteAt_below hm' (by omega)]
  · rwa [Memory.byteAt_cons_of_ne b m hka, Memory.byteAt_cons_of_ne b m' hka] at h

/-- Canonical memories that read alike below 4096 are equal, by induction on the entries. -/
theorem Memory.ext_of_wfFrom {m m' : Memory} {lo : Nat} (hm : Memory.wfFrom lo m = true)
    (hm' : Memory.wfFrom lo m' = true) (h : ∀ a, a < 4096 → Memory.byteAt m a = Memory.byteAt m' a) : m = m' := by
  induction m generalizing m' lo with
  | nil =>
    cases m' with
    | nil => rfl
    | cons => exact absurd (fun a ha => (h a ha).symm) (Memory.not_reads_unlisted hm')
  | cons c m ih =>
    obtain ⟨k, b⟩ := c
    cases m' with
    | nil => exact absurd h (Memory.not_reads_unlisted hm)
    | cons c' m' =>
      obtain ⟨k', b'⟩ := c'
      obtain ⟨-, hk, -, hrest⟩ := Memory.wfFrom_cons.1 hm
      obtain ⟨-, hk', -, hrest'⟩ := Memory.wfFrom_cons.1 hm'
      obtain rfl : k = k' := Nat.le_antisymm (Memory.head_le_of_byteAt_eq hm' hm (h k' hk').symm)
        (Memory.head_le_of_byteAt_eq hm hm' (h k hk))
      obtain rfl : b = b' := by simpa only [Memory.byteAt_cons_self] using h k hk
      rw [ih hrest hrest' fun a ha => Memory.tails_read_alike hrest hrest' (h a ha)]

/-- Settles O30: the case of `Memory.ext_of_wfFrom` from address 0 on. -/
theorem canonicalMemoriesAreExtensional : Obligations.CanonicalMemoriesAreExtensional :=
  fun _ _ => Memory.ext_of_wfFrom

end Sys2Proof.Machine
end

section
/-! PROOFS. The sprite draw in closed form (spec/43_display.md R181 to R184). -/

namespace Sys2Proof.Machine

theorem getD_bytesAtI (s : State) (n j : Nat) :
    (s.bytesAtI n).getD j 0 = if j < n then s.mem.byteAt (s.base + j) else 0 := by
  split
  · next h => simp [State.bytesAtI, h]
  · next h => simp [State.bytesAtI, h]

/-- A sprite bit covers a pixel exactly when the sprite row at the pixel's height sets its column (R181, R182). -/
theorem State.spriteSets_eq (s : State) (x y : Reg) (n px py : Nat) :
    s.spriteSets x y n px py = (decide ((s.reg y).toNat ≤ py) &&
      rowSets (s.reg x).toNat ((s.bytesAtI n).getD (py - (s.reg y).toNat) 0) px) := by
  have hrow : (s.reg y).toNat ≤ py → (py < (s.reg y).toNat + n ↔ py - (s.reg y).toNat < n) := by omega
  unfold State.spriteSets
  rw [getD_bytesAtI]
  by_cases htop : (s.reg y).toNat ≤ py
  · by_cases hin : py - (s.reg y).toNat < n
    · simp [rowSets, spriteBit, htop, hin, hrow htop]
    · simp [htop, hin, hrow htop]
  · simp [htop]

/-- A sprite depends on memory, `I` and its two coordinates only. -/
theorem State.spriteSets_congr {s t : State} {x y : Reg} (hmem : t.mem = s.mem) (hi : t.i = s.i)
    (hx : t.reg x = s.reg x) (hy : t.reg y = s.reg y) (n px py : Nat) :
    t.spriteSets x y n px py = s.spriteSets x y n px py := by
  simp only [State.spriteSets, State.base, hmem, hi, hx, hy]

theorem flagByte_eq_one_iff (c : Bool) : flagByte c = 1 ↔ c = true := by
  cases c <;> decide

theorem flagByte_eq_zero_or_one (c : Bool) : flagByte c = 0 ∨ flagByte c = 1 := by
  cases c <;> decide

/-- The pixels after a draw (R183). -/
theorem State.pixel_blit (s : State) (x y : Reg) (n : Nat) {px py : Nat} (hpx : px < 64) (hpy : py < 32) :
    Display.pixel (s.blit x y (s.bytesAtI n)).disp px py =
      (Display.pixel s.disp px py ^^ s.spriteSets x y n px py) := by
  refine (Blit.rows_pixel _ _ _ 0 _ px py).trans ?_
  rw [State.spriteSets_eq]
  simp only [hpx, hpy, true_and, Nat.add_zero]

/-- `VF` after a draw: 1 exactly when a set sprite bit meets a lit pixel (R184). -/
theorem State.flag_blit_eq_one_iff (s : State) (x y : Reg) (n : Nat) :
    (s.blit x y (s.bytesAtI n)).reg 15 = 1 ↔ ∃ px py, px < 64 ∧ py < 32 ∧ s.spriteSets x y n px py = true ∧
      Display.pixel s.disp px py = true := by
  have hflag : (s.blit x y (s.bytesAtI n)).reg 15 = flagByte _ := State.reg_setReg_same _ _ _
  rw [hflag, flagByte_eq_one_iff, Blit.rows_collided]
  simp only [State.spriteSets_eq, Bool.false_eq_true, false_or, Nat.add_zero, Bool.and_eq_true, decide_eq_true_eq,
    and_assoc]

/-- Settles O32: the result of DRW is the blit of the bytes at `I`, known pixel by pixel. -/
theorem drawXorsTheSprite : Obligations.DrawXorsTheSprite := by
  intro s x y n
  refine ⟨fun hfit => ?draws, fun hn hout => exec_of_error (State.readError_outOfBounds hn hout)⟩
  case draws =>
    have herror : s.error? (.drw x y n) = none := if_neg (by omega)
    exact ⟨s.result (.drw x y n), exec_of_no_error herror, rfl, fun r hr => State.reg_setReg_other _ _ hr,
      fun px py => s.pixel_blit x y n,
      (State.reg_setReg_same _ _ _).symm ▸ flagByte_eq_zero_or_one _, s.flag_blit_eq_one_iff x y n⟩

/-- Settles O33: by O32 twice; the sprite is the same at both draws, and XOR with it twice is the identity. -/
theorem drawingTwiceRestoresTheDisplay : Obligations.DrawingTwiceRestoresTheDisplay := by
  intro s x y n hx hy hfit
  obtain ⟨t, hdraw, ht, hregs, hpixel, -, -⟩ := (drawXorsTheSprite s x y n).1 hfit
  have hmem : t.mem = s.mem := by rw [ht]
  have hi : t.i = s.i := by rw [ht]
  have hsprite := State.spriteSets_congr hmem hi (hregs x hx) (hregs y hy) n
  have hfit' : n = 0 ∨ t.base + n ≤ 0x1000 := by rwa [State.base, hi]
  obtain ⟨u, hagain, -, -, hpixel', -, hflag⟩ := (drawXorsTheSprite t x y n).1 hfit'
  refine ⟨t, u, hdraw, hagain, Display.ext_pixel fun px py hpx hpy => ?restored, hflag.trans ?collides⟩
  case restored =>
    rw [hpixel' px py hpx hpy, hpixel px py hpx hpy, hsprite, Bool.xor_assoc, Bool.xor_self, Bool.xor_false]
  case collides =>
    refine exists_congr fun px => exists_congr fun py => ?_
    refine and_congr_right fun hpx => and_congr_right fun hpy => ?_
    rw [hsprite, hpixel px py hpx hpy]
    exact and_congr_right fun hset => by rw [hset, Bool.xor_true, Bool.not_eq_true']

end Sys2Proof.Machine
end

section
/-! PROOFS. The host's operations around a fault and a wait (spec/60_exceptions.md R223, R232, R240;
spec/44_timers_keypad.md R203, R204). -/

namespace Sys2Proof.Machine

/-! ### Ticks and key deliveries -/

/-- "Floored at 0" is the subtraction of natural numbers (R232). -/
theorem tickDown_toNat (b : Byte) : (tickDown b).toNat = b.toNat - 1 := by
  unfold tickDown
  split
  · next h => rw [h]; rfl
  · next h =>
    have hpos : b.toNat ≠ 0 := fun h0 => h (BitVec.eq_of_toNat_eq h0)
    bv_omega

/-- Settles O39: both timers are a `tickDown`. -/
theorem tickDecrementsBothTimers : Obligations.TickDecrementsBothTimers :=
  fun s => ⟨s.timerTick, rfl, rfl, tickDown_toNat s.dt, tickDown_toNat s.st⟩

/-- What a delivered key does to a waiting machine (R204). -/
theorem State.deliverKeyPress_ends_wait {s : State} {r : Reg} (k : Key) (h : s.status = .waitingForKey r) :
    s.deliverKeyPress k = { s with v := (s.deliverKeyPress k).v, pc := s.pc + 2, status := .running } ∧
      ((s.deliverKeyPress k).reg r).toNat = k.val ∧ ∀ q, q ≠ r → (s.deliverKeyPress k).reg q = s.reg q := by
  rw [State.deliverKeyPress_waiting k h]
  have hk := k.isLt
  refine ⟨rfl, ?_, fun q hq => State.reg_setReg_other s _ hq⟩
  exact (congrArg BitVec.toNat (State.reg_setReg_same s r _)).trans (ofNat_toNat_of_lt (by omega))

/-- Settles O38: a delivery ends a wait, and without one answers the same state. -/
theorem keyDeliveryNeedsAWait : Obligations.KeyDeliveryNeedsAWait :=
  fun s k => ⟨fun _ h => ⟨s.deliverKeyPress k, rfl, State.deliverKeyPress_ends_wait k h⟩,
    fun h => congrArg (Prod.mk _) (State.deliverKeyPress_running k h)⟩

/-! ### A machine that steps no further -/

/-- The host's own fields alone differ: memory by `load`, the timers, the keypad. -/
def HostFrame (s t : State) : Prop := t = { s with mem := t.mem, dt := t.dt, st := t.st, key := t.key }

theorem HostFrame.trans {s t u : State} (hst : HostFrame s t) (htu : HostFrame t u) : HostFrame s u := by
  unfold HostFrame at *
  rw [htu, hst]

theorem HostFrame.fault_eq {s t : State} (h : HostFrame s t) : t.fault = s.fault := by
  unfold HostFrame at h; rw [h]
theorem HostFrame.status_eq {s t : State} (h : HostFrame s t) : t.status = s.status := by
  unfold HostFrame at h; rw [h]
theorem HostFrame.pc_eq {s t : State} (h : HostFrame s t) : t.pc = s.pc := by
  unfold HostFrame at h; rw [h]
theorem HostFrame.reg_eq {s t : State} (h : HostFrame s t) (r : Reg) : t.reg r = s.reg r := by
  unfold HostFrame at h; rw [h]; rfl

/-- Where a step changes nothing and no wait is ended, every host operation but `init` writes the host's own fields
alone. -/
theorem perform_hostFrame {s : State} {op : HostOp} (hinit : op.isInit = false) (hstep : (perform .step s).2 = s)
    (hdelivery : op.isDelivery = true → s.status = .running) : HostFrame s (perform op s).2 := by
  cases op with
  | init => cases hinit
  | load image => obtain ⟨m, hm, -⟩ := perform_load_frame s image; rw [hm]; rfl
  | step => rw [hstep]; rfl
  | deliverKeyPress k => simp only [perform, State.deliverKeyPress_running k (hdelivery rfl)]; rfl
  | timerTick | setKeyState | snapshot | soundActive => rfl

/-- Along operations that each write the host's own fields alone, nothing else changes. -/
theorem performAll_hostFrame {s : State} {ops : List HostOp}
    (h : ∀ op ∈ ops, ∀ t, HostFrame s t → HostFrame t (perform op t).2) : HostFrame s (performAll ops s) :=
  performAll_induction (P := HostFrame s) rfl fun op hop t ht => ht.trans (h op hop t ht)

/-- A step of a machine with a fault recorded returns it and changes nothing (R223). -/
theorem perform_step_recorded {s : State} {e : Fault} (h : s.fault = some e) :
    perform .step s = (.stepError e, s) := by
  simp only [perform, State.hostStep, step_recorded h]

/-- Settles O9: the fault and the status stay, so at every operation a step is fixed and a delivery finds no wait. -/
theorem recordedFaultIsFinal : Obligations.RecordedFaultIsFinal := by
  intro s e ops hf hr hops t
  have hframe : HostFrame s t := performAll_hostFrame fun op hop u hu =>
    perform_hostFrame (hops op hop) (congrArg Prod.snd (perform_step_recorded (hu.fault_eq.trans hf)))
      fun _ => hu.status_eq.trans hr
  exact ⟨hframe, perform_step_recorded (hframe.fault_eq.trans hf)⟩

/-- Settles O37: the wait stays, so at every operation a step is fixed; then the delivery ends it. -/
theorem waitEndsOnlyByDelivery : Obligations.WaitEndsOnlyByDelivery := by
  intro s r ops k hf hw hops t u
  have hframe : HostFrame s t := performAll_hostFrame fun op hop v hv =>
    perform_hostFrame (hops op hop).1
      (congrArg Prod.snd (perform_step_waiting (hv.fault_eq.trans hf) (hv.status_eq.trans hw)))
      fun hdelivery => by cases (hops op hop).2.symm.trans hdelivery
  obtain ⟨hu, hkey, hothers⟩ := State.deliverKeyPress_ends_wait k (hframe.status_eq.trans hw)
  exact ⟨hframe, hframe.pc_eq ▸ hu, hkey, fun q hq => (hothers q hq).trans (hframe.reg_eq q)⟩

end Sys2Proof.Machine
end

section
/-! PROOFS. Initialisation and boot, and the placing of a word (spec/70_reset_and_hazards.md R261 to R266;
spec/30_encoding.md R80, R89). -/

namespace Sys2Proof.Machine

/-! ### Initialisation -/

/-- Above the glyph region an unlisted address reads as 0 (R261). -/
theorem unlistedByte_above {a : Nat} (h : 80 ≤ a) : unlistedByte a = 0 := by
  have hlen : defaultFont.toList.length ≤ a := by rwa [Vector.length_toList]
  rw [unlistedByte, List.getElem?_eq_none hlen, Option.getD_none]

/-- Inside the glyph region an unlisted address reads as its default glyph byte (R64). -/
theorem unlistedByte_glyph {a : Nat} (h : a < 80) : unlistedByte a = defaultFont[a] := by
  rw [unlistedByte, List.getElem?_eq_getElem (by rwa [Vector.length_toList]), Option.getD_some, Vector.getElem_toList]

/-- After `init` the glyph table stands at 0x000 to 0x04F. -/
theorem State.byteAt_init_glyph (font : Vector Byte 80) {a : Nat} (h : a < 80) :
    (State.init font).mem.byteAt a = font[a] := by
  have hread := Memory.byteAt_storeAll (m := []) (a := 0) font.toList (by rw [Vector.length_toList]; omega) rfl a
    (by rwa [Vector.length_toList])
  rwa [Nat.zero_add, Vector.getElem_toList] at hread

/-- After `init` every address above the glyph region reads as 0. -/
theorem State.byteAt_init_above (font : Vector Byte 80) {a : Nat} (h : 80 ≤ a) :
    (State.init font).mem.byteAt a = 0 :=
  (Memory.byteAt_storeAll_other font.toList (.inr (by rwa [Vector.length_toList]))).trans (unlistedByte_above h)

/-- With the default table `init` lists nothing: its memory reads as the reset contents. -/
theorem State.init_defaultFont : State.init defaultFont = State.reset := by
  have hmem : (State.init defaultFont).mem = [] := by
    refine canonicalMemoriesAreExtensional _ _ (State.init_mem_wf _) rfl fun a _ => ?_
    by_cases h : a < 80
    · exact (State.byteAt_init_glyph _ h).trans (unlistedByte_glyph h).symm
    · exact (State.byteAt_init_above _ (by omega)).trans (unlistedByte_above (by omega)).symm
  calc State.init defaultFont = { State.reset with mem := (State.init defaultFont).mem } := rfl
    _ = State.reset := by rw [hmem]; rfl

/-- Settles O41: memory as above, every other field as `State.reset` writes it. -/
theorem initGivesTheResetState : Obligations.InitGivesTheResetState := by
  refine ⟨fun s font => ⟨_, rfl, fun a => State.byteAt_init_glyph font, fun a => State.byteAt_init_above font,
    fun r => ?regs, rfl, rfl, rfl, fun k h => ?stack, rfl, rfl, Display.pixel_blank, fun k h => ?keys, rfl, rfl, rfl⟩,
    State.init_defaultFont⟩
  case regs => exact Vector.getElem_replicate r.isLt
  case stack => exact Vector.getElem_replicate h
  case keys => exact Vector.getElem_replicate h

/-! ### Boot and the placing of a word -/

/-- The bytes placed at a fetchable `PC` in a canonical memory are the word fetched. -/
theorem State.fetch_storeAll {s : State} {m : Memory} {hi lo : Byte} {rest : List Byte} (hwf : Memory.wf m = true)
    (hmem : s.mem = m.storeAll s.pc.toNat (hi :: lo :: rest)) (hfit : s.pc.toNat + (rest.length + 2) ≤ 4096) :
    s.fetch = .ok (bigEndian hi lo) := by
  have hread := Memory.byteAt_storeAll (hi :: lo :: rest) (a := s.pc.toNat) hfit hwf
  have hhi := hread 0 (Nat.zero_lt_succ _)
  have hlo := hread 1 (Nat.succ_lt_succ (Nat.zero_lt_succ _))
  rw [State.fetch_ok (by omega), hmem]
  exact congrArg Except.ok (congrArg₂ bigEndian hhi hlo)

/-- Settles O43: the image stands at 0x200, where `PC` is after `init`. -/
theorem loadedProgramRunsFirst : Obligations.LoadedProgramRunsFirst := by
  intro s font hi lo rest w i hlen hw hd t
  have ht : t = { State.init font with
      mem := (State.init font).mem.storeAll 0x200 (hi :: lo :: rest), draws := s.draws } :=
    congrArg Prod.snd (perform_load_fits (s := { State.init font with draws := s.draws })
      (image := hi :: lo :: rest) hlen)
  have hpc : t.pc = 0x200 := by rw [ht]; rfl
  have hpcNat : t.pc.toNat = 0x200 := by rw [hpc]; rfl
  have hmem : t.mem = (State.init font).mem.storeAll t.pc.toNat (hi :: lo :: rest) := by rw [hpcNat, ht]
  have hfetch := State.fetch_storeAll (State.init_mem_wf font) hmem (by omega)
  have hword : bigEndian hi lo = w := BitVec.eq_of_toNat_eq ((bigEndian_toNat hi lo).trans hw.symm)
  have hfault : t.fault = none := by rw [ht]; rfl
  have hstatus : t.status = .running := by rw [ht]; rfl
  exact ⟨hpc, step_decoded hfault hstatus (hword ▸ hfetch) hd, rfl⟩

/-- A word given with all its 16 bits is the word placed. -/
theorem tableWord_toNat (w : Word) : tableWord 16 w.toNat = w := by
  rw [tableWord, Nat.mod_eq_of_lt w.isLt, BitVec.ofNat_toNat, BitVec.setWidth_eq]

/-- Where `withFetchWord` places the word, two bytes fit. -/
theorem State.withFetchWord_pc_le (s : State) (nbits w : Nat) : (s.withFetchWord nbits w).pc.toNat ≤ 0xFFE := by
  simp only [State.withFetchWord]
  split
  · assumption
  · decide

/-- Settles O44: the word placed at `PC` is fetched, with no fault and no wait in the way. -/
theorem placedWordRunsNext : Obligations.PlacedWordRunsNext := by
  intro s w i hwf hd
  have hpc := s.withFetchWord_pc_le 16 w.toNat
  have hfetch : (s.withFetchWord 16 w.toNat).fetch = .ok _ := State.fetch_storeAll (rest := []) hwf rfl (by simp; omega)
  rw [tableWord_toNat, bigEndian_wordBytes] at hfetch
  exact step_decoded rfl rfl hfetch hd

end Sys2Proof.Machine
end
